-- ==== Sys2Proof/Word.lean ====
section
/-! DEFINITION. The value type B33 of B33CORE (spec/00_scope.md R9, spec/10_state.md R20, R21) and its numeric value. -/

namespace Sys2Proof

/-- The command word on port `cmd` (spec/30_encoding.md R60). -/
abbrev CommandWord := BitVec 8

/-- A split-field value (R9, R20): `msb17` holds logical bits 32..16, its bit 16 being the rollover bit, and
`lsb16` holds logical bits 15..0. The invariant of R21 (no bit above either field) holds by the field types. -/
structure B33 where
  ofFields ::
  /-- The high field, logical bits 32..16. -/
  msb17 : BitVec 17
  /-- The low field, logical bits 15..0. -/
  lsb16 : BitVec 16
  deriving DecidableEq, Repr

/-- `val(x) = x.msb17 * 2^16 + x.lsb16` (R9), a number in [0, 2^33 − 1]. -/
def B33.val (x : B33) : Nat :=
  x.msb17.toNat * 2 ^ 16 + x.lsb16.toNat

end Sys2Proof
end

