-- ==== Sys2Proof/Syntax.lean ====
section
/-! DEFINITION. The commands of B33CORE (spec/30_encoding.md R70), the fields of a command word (R60) and the
lines of the assembler (R68, R69). -/

namespace Sys2Proof

/-- The eighteen commands, one constructor for each row of spec/opcode_table.json. No operand stands in the command
word: operands are read from the ports at the same edge (R60, R66). -/
inductive Instr where
  | nop
  | clr
  | ld32
  | ld33
  | ldv
  | addV
  | addwV
  | addU
  | addwU
  | addS
  | addwS
  | subV
  | subwV
  | subU
  | subwU
  | subS
  | subwS
  | cmp
  deriving DecidableEq, Repr

/-- The four fields of a command word (R60). -/
structure CommandFields where
  /-- `cmd[7:4]`, the operation (R61). -/
  opc : BitVec 4
  /-- `cmd[3:2]`, the right operand of ADD and SUB (R62). -/
  src : BitVec 2
  /-- `cmd[1]`, write-back for ADD and SUB (R62). -/
  w : BitVec 1
  /-- `cmd[0]`, reserved, must be 0 (R60). -/
  z : BitVec 1
  deriving DecidableEq, Repr

/-- How a command reads port `n` (R66, R68). -/
inductive NativeUse where
  /-- The command ignores `n`. -/
  | ignored
  /-- The command reads `n` as unsigned: LD32, LD33 and the `.U` forms. -/
  | unsigned
  /-- The command reads `n` as two's complement signed: the `.S` forms. -/
  | signed
  deriving DecidableEq, Repr

/-- Whether a command reads the value operand B (R66: LDV, the `.V` forms and CMP). -/
def Instr.usesB : Instr → Bool
  | .ldv | .addV | .addwV | .subV | .subwV | .cmp => true
  | .nop | .clr | .ld32 | .ld33 | .addU | .addwU | .addS | .addwS | .subU | .subwU | .subS | .subwS => false

/-- How a command reads the native operand `n` (R66, R68). -/
def Instr.nativeUse : Instr → NativeUse
  | .ld32 | .ld33 | .addU | .addwU | .subU | .subwU => .unsigned
  | .addS | .addwS | .subS | .subwS => .signed
  | .nop | .clr | .ldv | .addV | .addwV | .subV | .subwV | .cmp => .ignored

/-- Whether a command reads `n_hi` (R66: LD33 alone). -/
def Instr.usesHi : Instr → Bool
  | .ld33 => true
  | .nop | .clr | .ld32 | .ldv | .addV | .addwV | .addU | .addwU | .addS | .addwS
  | .subV | .subwV | .subU | .subwU | .subS | .subwS | .cmp => false

/-- A command line of the assembler (R68): a command and the operands the line writes. -/
structure CommandLine where
  instr : Instr
  /-- `b=`, a value in [0, 2^33 − 1]. -/
  b : Option Nat
  /-- `n=`, a value in [0, 2^32 − 1], or in [−2^31, 2^31 − 1] for an `.S` form. -/
  n : Option Int
  /-- `hi=`, 0 or 1. -/
  hi : Option Nat
  deriving DecidableEq, Repr

/-- A line of the assembler: a command line, or one of the five pseudo-instructions of R69. -/
inductive AsmLine where
  | command (c : CommandLine)
  | ldi (v : Nat)
  | mov (b : Nat)
  | inc
  | dec
  | tst
  deriving DecidableEq, Repr

end Sys2Proof
end

