-- ==== Sys2Proof/WellFormed.lean ====
section
/-! DEFINITION. Which command fields are legal (spec/30_encoding.md R62 to R64) and which assembler lines are well
formed (R68, R69). -/

namespace Sys2Proof

/-- R62: `Z` must be 0 in every command. -/
def CommandFields.reservedBitClear (f : CommandFields) : Bool :=
  f.z == 0#1

/-- R61: OPC 0x8 to 0xF are reserved. -/
def CommandFields.opcodeAssigned (f : CommandFields) : Bool :=
  decide (f.opc.toNat < 8)

/-- Whether the operation is ADD or SUB, the two that have `SRC` and `W` (R61, R62). -/
def CommandFields.isArith (f : CommandFields) : Bool :=
  f.opc == 0x5#4 || f.opc == 0x6#4

/-- R62: for OPC other than ADD and SUB, `SRC` and `W` must be 0. -/
def CommandFields.plainFieldsClear (f : CommandFields) : Bool :=
  f.isArith || (f.src == 0b00#2 && f.w == 0#1)

/-- R62: `SRC = 11` is reserved on ADD and SUB. -/
def CommandFields.sourceAssigned (f : CommandFields) : Bool :=
  !f.isArith || f.src != 0b11#2

/-- `legal` of R63, over the fields of the word. -/
def CommandFields.legal (f : CommandFields) : Bool :=
  f.reservedBitClear && f.opcodeAssigned && f.plainFieldsClear && f.sourceAssigned

/-- An instruction term carries no operand (R60), so there is nothing in it to check: every one is well formed. -/
def Instr.wellFormed (_ : Instr) : Bool := true

/-- R68: a line writes `b` exactly where the command reads it, with a value in [0, 2^33 − 1]. -/
def CommandLine.bFits (c : CommandLine) : Bool :=
  match c.b with
  | none => !c.instr.usesB
  | some v => c.instr.usesB && decide (v < 2 ^ 33)

/-- R68: a line writes `n` exactly where the command reads it, with a value in the range its reading gives. -/
def CommandLine.nFits (c : CommandLine) : Bool :=
  match c.instr.nativeUse, c.n with
  | .ignored, none => true
  | .ignored, some _ => false
  | .unsigned, some v => decide (0 ≤ v ∧ v < 2 ^ 32)
  | .unsigned, none => false
  | .signed, some v => decide (-2 ^ 31 ≤ v ∧ v < 2 ^ 31)
  | .signed, none => false

/-- R68: a line writes `hi` exactly where the command reads it, as 0 or 1. -/
def CommandLine.hiFits (c : CommandLine) : Bool :=
  match c.hi with
  | none => !c.instr.usesHi
  | some v => c.instr.usesHi && decide (v < 2)

/-- A well-formed command line (R68). -/
def CommandLine.wellFormed (c : CommandLine) : Bool :=
  c.instr.wellFormed && c.bFits && c.nFits && c.hiFits

/-- A well-formed assembler line (R68, R69). -/
def AsmLine.wellFormed : AsmLine → Bool
  | .command c => c.wellFormed
  | .ldi v => decide (v < 2 ^ 33)
  | .mov b => decide (b < 2 ^ 33)
  | .inc => true
  | .dec => true
  | .tst => true

end Sys2Proof
end

