-- ==== Sys2Proof/Decode.lean ====
section
/-! DEFINITION. Decoding and encoding of the 8-bit command word (spec/30_encoding.md R60 to R65, R70). -/

namespace Sys2Proof

/-- Why a word is no command (R64). Each raises IllegalCommand in the machine (spec/60_exceptions.md R160). -/
inductive DecodeReject where
  /-- `Z = 1`. -/
  | reservedBitSet
  /-- OPC 0x8 to 0xF. -/
  | reservedOpcode
  /-- `SRC != 00` or `W = 1` on NOP, CLR, LD32, LD33, LDV or CMP. -/
  | fieldsOnPlainCommand
  /-- `SRC = 11` on ADD or SUB. -/
  | reservedSource
  deriving DecidableEq, Repr

/-- The fields of a command word (R60). -/
def splitFields (cmd : CommandWord) : CommandFields where
  opc := cmd.extractLsb' 4 4
  src := cmd.extractLsb' 2 2
  w := cmd.extractLsb' 1 1
  z := cmd.extractLsb' 0 1

/-- The word of four fields (R60). -/
def joinFields (f : CommandFields) : CommandWord :=
  f.opc ++ f.src ++ f.w ++ f.z

/-- A command whose `SRC` and `W` must be 0 (R62). -/
def decodePlain (i : Instr) (f : CommandFields) : Except DecodeReject Instr :=
  if f.src = 0b00#2 ∧ f.w = 0#1 then .ok i else .error .fieldsOnPlainCommand

/-- ADD by `SRC` and `W` (R62, R70). -/
def decodeAdd (f : CommandFields) : Except DecodeReject Instr :=
  if f.src = 0b00#2 then .ok (if f.w = 1#1 then .addwV else .addV)
  else if f.src = 0b01#2 then .ok (if f.w = 1#1 then .addwU else .addU)
  else if f.src = 0b10#2 then .ok (if f.w = 1#1 then .addwS else .addS)
  else .error .reservedSource

/-- SUB by `SRC` and `W` (R62, R70). -/
def decodeSub (f : CommandFields) : Except DecodeReject Instr :=
  if f.src = 0b00#2 then .ok (if f.w = 1#1 then .subwV else .subV)
  else if f.src = 0b01#2 then .ok (if f.w = 1#1 then .subwU else .subU)
  else if f.src = 0b10#2 then .ok (if f.w = 1#1 then .subwS else .subS)
  else .error .reservedSource

/-- Decoding by the fields (R61 to R63, R70). -/
def decodeFields (f : CommandFields) : Except DecodeReject Instr :=
  if f.z = 1#1 then .error .reservedBitSet
  else if f.opc = 0x0#4 then decodePlain .nop f
  else if f.opc = 0x1#4 then decodePlain .clr f
  else if f.opc = 0x2#4 then decodePlain .ld32 f
  else if f.opc = 0x3#4 then decodePlain .ld33 f
  else if f.opc = 0x4#4 then decodePlain .ldv f
  else if f.opc = 0x5#4 then decodeAdd f
  else if f.opc = 0x6#4 then decodeSub f
  else if f.opc = 0x7#4 then decodePlain .cmp f
  else .error .reservedOpcode

/-- Decoding is total on all 256 words (R63): each is one of the eighteen commands or rejected by name. -/
def decode (cmd : CommandWord) : Except DecodeReject Instr :=
  decodeFields (splitFields cmd)

/-- The row of the opcode table: OPC, SRC and W of each command (R70), with Z = 0. -/
def encodeFields : Instr → CommandFields
  | .nop => ⟨0x0, 0b00, 0, 0⟩
  | .clr => ⟨0x1, 0b00, 0, 0⟩
  | .ld32 => ⟨0x2, 0b00, 0, 0⟩
  | .ld33 => ⟨0x3, 0b00, 0, 0⟩
  | .ldv => ⟨0x4, 0b00, 0, 0⟩
  | .addV => ⟨0x5, 0b00, 0, 0⟩
  | .addwV => ⟨0x5, 0b00, 1, 0⟩
  | .addU => ⟨0x5, 0b01, 0, 0⟩
  | .addwU => ⟨0x5, 0b01, 1, 0⟩
  | .addS => ⟨0x5, 0b10, 0, 0⟩
  | .addwS => ⟨0x5, 0b10, 1, 0⟩
  | .subV => ⟨0x6, 0b00, 0, 0⟩
  | .subwV => ⟨0x6, 0b00, 1, 0⟩
  | .subU => ⟨0x6, 0b01, 0, 0⟩
  | .subwU => ⟨0x6, 0b01, 1, 0⟩
  | .subS => ⟨0x6, 0b10, 0, 0⟩
  | .subwS => ⟨0x6, 0b10, 1, 0⟩
  | .cmp => ⟨0x7, 0b00, 0, 0⟩

/-- The command word of an instruction (R60, R70). -/
def encode (i : Instr) : CommandWord :=
  joinFields (encodeFields i)

/-- The instruction the decoder reads from a row's bits: the table gives a row one 8-bit word (R65). -/
def decodeTableWord (nbits w : Nat) : Option Instr :=
  if nbits = 8 ∧ w < 256 then (decode (BitVec.ofNat 8 w)).toOption else none

end Sys2Proof
end

