-- ==== Sys2Proof/Config.lean ====
section
/-! DEFINITION. What the build of the block fixes (spec/00_scope.md R7). -/

namespace Sys2Proof

/-- `SIGNED_NEG_ROLLOVER` (R7; spec/92_eei_decisions.md D6): the rollover bit given to the absolute value of a
negative signed operand. A build-time parameter in {0, 1}, no register (spec/10_state.md R25). "This hardware takes 1"
(R7, spec/30_encoding.md R67). The conversion of R67 takes the parameter as an argument, and only the eighteen
meanings fix it here: log entry 4. -/
def Config.signedNegRollover : BitVec 1 := 1#1

end Sys2Proof
end

