-- ==== Sys2Proof/Machine/State.lean ====
section
/-! DEFINITION. The state of B33CORE: the register R and the output register (spec/10_state.md R20, R26), the input
ports the host drives (R27), and the two marks a run carries (spec/60_exceptions.md R161, spec/70_reset_and_hazards.md
R183). All of it is plain data. -/

namespace Sys2Proof.Machine

/-- The values on the input ports at one rising edge (R27). `clk` is not a field: a step is a rising edge (R185). -/
structure Ports where
  /-- Synchronous reset, active high (R180). -/
  rst : Bool
  /-- `cmd` holds a command to execute at this edge (R185). -/
  cmdValid : Bool
  /-- The command word (R60). -/
  cmd : CommandWord
  /-- The high field of operand B. -/
  bMsb17 : BitVec 17
  /-- The low field of operand B. -/
  bLsb16 : BitVec 16
  /-- The native operand (R66). -/
  n : BitVec 32
  /-- The rollover argument of LD33. -/
  nHi : BitVec 1
  deriving DecidableEq, Repr

/-- A host that presents nothing at an edge: `rst = 0`, `cmd_valid = 0` (R186). The other lines are 0; no idle edge
reads them. DESIGN CHOICE, log entry 1. -/
def Ports.idle : Ports :=
  { rst := false, cmdValid := false, cmd := 0#8, bMsb17 := 0#17, bLsb16 := 0#16, n := 0#32, nHi := 0#1 }

/-- The output register `out` (R26). -/
structure StepOut where
  /-- The result value of the step. -/
  y : B33
  /-- The six relations: bit 0 eq, 1 ne, 2 lt, 3 le, 4 gt, 5 ge. -/
  rel : BitVec 6
  /-- The step's command was illegal. -/
  err : Bool
  deriving DecidableEq, Repr

/-- The values on the output ports (R27). -/
structure OutputPorts where
  yMsb17 : BitVec 17
  yLsb16 : BitVec 16
  rel : BitVec 6
  err : Bool
  rawMsb17 : BitVec 17
  rawLsb16 : BitVec 16
  roll : Bool
  lowbit : Bool
  high32 : BitVec 32
  low32 : BitVec 32
  deriving DecidableEq, Repr

/-- The block's exceptions. No step ends in a fault: taking the exception is a next state (R161), in which this is
the mark the run carries. -/
inductive Fault where
  /-- `IllegalCommand`, cause code 1 (R160). Raised by an executed step whose command word is one of the 238 illegal
  ones; recorded in `State.faultMark`, where nothing clears it (R161). Safe: a marked run is never a correct run. -/
  | illegalCommand
  deriving DecidableEq, Repr

/-- What the model refuses. -/
inductive Refusal where
  /-- An instruction that has no meaning. Raised by no arm of `exec`: all eighteen commands have theirs. Safe. -/
  | notModelled (mnemonic : String)
  /-- A command issued before any reset edge: "A run that issues a command before any reset is refused by the model"
  (R183; spec/93_implementation_defined.md X6). Raised by the edge, before decoding. Safe. -/
  | commandBeforeReset
  deriving DecidableEq, Repr

/-- The block and what its host drives. "R and `out` are all its state" (R29); the other fields are the host's side
of the ports (log entry 1) and the marks that the spec asks a model to keep (log entries 2 and 3). -/
structure State where
  /-- The split-field register (R20). -/
  R : B33
  /-- The output register (R26). -/
  out : StepOut
  /-- The input ports at the coming rising edge (R27). -/
  ports : Ports
  /-- What the host drives at the edges after the coming one, the nearest first (R23, R45). The model's own field. -/
  schedule : List Ports
  /-- The fault mark of the run (R161). -/
  faultMark : Option Fault
  /-- Whether a reset edge has happened (R183). -/
  resetSeen : Bool
  deriving DecidableEq, Repr

/-- The state right after reset (R31, R181): R = ZERO, out = (ZERO, 000000, 0), with no command presented yet. -/
def State.reset : State where
  R := { msb17 := 0#17, lsb16 := 0#16 }
  out := { y := { msb17 := 0#17, lsb16 := 0#16 }, rel := 0b000000#6, err := false }
  ports := Ports.idle
  schedule := []
  faultMark := none
  resetSeen := true

end Sys2Proof.Machine
end

