-- ==== Sys2Proof/Machine/Accessors.lean ====
section
/-! DEFINITION. The accessors (spec/40_construct_access.md R90 to R95) and the output ports they drive
(spec/10_state.md R27). -/

namespace Sys2Proof.Machine

/-- `RAW` (R90): both fields unmodified. -/
def rawParts (x : B33) : BitVec 17 × BitVec 16 :=
  (x.msb17, x.lsb16)

/-- `ROLL` (R91): bit 16 of `msb17`. -/
def rolloverBit (x : B33) : Bool :=
  x.msb17.getLsbD 16

/-- `LOW32` (R92). -/
def lowWord32 (x : B33) : BitVec 32 :=
  x.msb17.extractLsb' 0 16 ++ x.lsb16

/-- `LOWBIT` (R93): bit 0 of `lsb16`. -/
def lowBit (x : B33) : Bool :=
  x.lsb16.getLsbD 0

/-- `HIGH32` (R94): the source's formula, which drops logical bit 16 and keeps the rollover bit in bit 31
(spec/90_conflicts.md C2). -/
def highWord32 (x : B33) : BitVec 32 :=
  x.msb17.extractLsb' 1 16 ++ x.lsb16

/-- Every output port (R27): `out` and the accessors of R, a combinational function (R95). -/
def outputPorts (s : State) : OutputPorts where
  yMsb17 := s.out.y.msb17
  yLsb16 := s.out.y.lsb16
  rel := s.out.rel
  err := s.out.err
  rawMsb17 := (rawParts s.R).1
  rawLsb16 := (rawParts s.R).2
  roll := rolloverBit s.R
  lowbit := lowBit s.R
  high32 := highWord32 s.R
  low32 := lowWord32 s.R

end Sys2Proof.Machine
end

