-- ==== Sys2Proof/Machine/Flags.lean ====
section
/-! DEFINITION. The comparator and the relation vector (spec/43_compare.md R140, R141), the only condition outputs of
the block (spec/10_state.md R24). -/

namespace Sys2Proof.Machine

/-- `EQ33` (R140): both fields equal. -/
def eq33 (a b : B33) : Bool :=
  a.msb17 == b.msb17 && a.lsb16 == b.lsb16

/-- `LT33` (R140): lexicographic on (msb17, lsb16), the fields compared as unsigned numbers. -/
def lt33 (a b : B33) : Bool :=
  BitVec.ult a.msb17 b.msb17 || (a.msb17 == b.msb17 && BitVec.ult a.lsb16 b.lsb16)

/-- `LE33` (R140). -/
def le33 (a b : B33) : Bool :=
  lt33 a b || eq33 a b

/-- `GT33` (R140). -/
def gt33 (a b : B33) : Bool :=
  !le33 a b

/-- `GE33` (R140). -/
def ge33 (a b : B33) : Bool :=
  gt33 a b || eq33 a b

/-- `NE33` (R140). -/
def ne33 (a b : B33) : Bool :=
  !eq33 a b

/-- `{GE33, GT33, LE33, LT33, NE33, EQ33}` with `eq` in bit 0 (R141). -/
def relVector (a b : B33) : BitVec 6 :=
  BitVec.ofBool (ge33 a b) ++ BitVec.ofBool (gt33 a b) ++ BitVec.ofBool (le33 a b) ++
    BitVec.ofBool (lt33 a b) ++ BitVec.ofBool (ne33 a b) ++ BitVec.ofBool (eq33 a b)

/-- `rel` of every legal step but CMP (R26, R144). -/
def noRelations : BitVec 6 :=
  0b000000#6

end Sys2Proof.Machine
end

