-- ==== Sys2Proof/Machine/Ops.lean ====
section
/-! DEFINITION. The shared operations: making a B33 (spec/00_scope.md R9), the adder (spec/41_add.md R100), the
subtractor (spec/42_sub.md R120), and the writes a step makes to R and `out`, among them taking IllegalCommand
(spec/60_exceptions.md R161) and the reset (spec/70_reset_and_hazards.md R180). -/

namespace Sys2Proof.Machine

/-- `mk(h, v)` (R9): msb17 = {h, v[31:16]}, lsb16 = v[15:0]. -/
def mkB33 (h : BitVec 1) (v : BitVec 32) : B33 where
  msb17 := h ++ v.extractLsb' 16 16
  lsb16 := v.extractLsb' 0 16

/-- `ZERO` (R9). -/
def zero33 : B33 := mkB33 0#1 0#32

/-- `ONE` (R9). -/
def one33 : B33 := mkB33 0#1 1#32

/-- `MAX33` (R9). -/
def max33 : B33 := mkB33 1#1 0xFFFFFFFF#32

/-- `toNative(x) = (x.msb17[16] ? 2^32 : 0) + LOW32(x)` (R9). -/
def toNative (x : B33) : Nat :=
  (if rolloverBit x then 2 ^ 32 else 0) + (lowWord32 x).toNat

/-- `fromNative(n) = mk(n[32], n[31:0])` for a number in [0, 2^33 − 1] (R9). -/
def fromNative (v : BitVec 33) : B33 :=
  mkB33 (v.extractLsb' 32 1) (v.extractLsb' 0 32)

/-- `ADD33` (R100): the low sum, its carry into the high sum, both masked to their fields. The low field is written
masked (spec/90_conflicts.md C1). -/
def add33 (a b : B33) : B33 :=
  let l := a.lsb16.toNat + b.lsb16.toNat
  let c := l >>> 16
  let h := a.msb17.toNat + b.msb17.toNat + c
  { msb17 := BitVec.ofNat 17 (h &&& 0x1FFFF), lsb16 := BitVec.ofNat 16 (l &&& 0xFFFF) }

/-- The GE path of `SUB33` (R120): field-wise exact differences, then the borrow correction where the low one is
negative. Selected only where `GE33(a, b)` holds, and there both numbers fit their fields (R121). -/
def subFields (a b : B33) : B33 :=
  let h : Int := a.msb17.toNat - b.msb17.toNat
  let l : Int := a.lsb16.toNat - b.lsb16.toNat
  if l < 0 then { msb17 := BitVec.ofInt 17 (h - 1), lsb16 := BitVec.ofInt 16 (l + 2 ^ 16) }
  else { msb17 := BitVec.ofInt 17 h, lsb16 := BitVec.ofInt 16 l }

/-- `SUB33` (R120), with the recursion of its LT path at its depth of one (R122): `SUB33(MAX33, b)` takes the GE
path for every `b`. -/
def sub33 (a b : B33) : B33 :=
  if ge33 a b then subFields a b
  else add33 (subFields max33 b) (add33 a one33)

/-- Writing the output register in a legal step: the result, the relations and `err <- 0` (R26). -/
def writeOut (y : B33) (rel : BitVec 6) (s : State) : State :=
  { s with out := { y := y, rel := rel, err := false } }

/-- `R <- x`: both fields in one step (R10, R43, R85). -/
def writeR (x : B33) (s : State) : State :=
  { s with R := x }

/-- The end of a command that loads R: R takes `x`, and `out.y` the new R (R26, R81 to R84). -/
def loadR (x : B33) (s : State) : State :=
  writeOut x noRelations (writeR x s)

/-- `raise IllegalCommand` (R161): R, `out.y` and `out.rel` unchanged, `out.err <- 1`, and the run's fault mark
recorded. Nothing else is saved and no control moves (R165); there is no return (R166): the next edge proceeds from
this state. -/
def takeIllegalCommand (s : State) : State :=
  { s with out := { s.out with err := true }, faultMark := some .illegalCommand }

/-- The cause code of an exception (R160). No register records it. -/
def causeCode : Fault → Nat
  | .illegalCommand => 1

/-- A reset edge (R180): R and `out` take their reset values whatever the other ports hold. The fault mark of the
run stays (R161: no later step clears it; DEDUCED, log entry 2). -/
def resetEdge (s : State) : State :=
  { s with R := zero33, out := { y := zero33, rel := noRelations, err := false }, resetSeen := true }

/-- After an edge the host presents its next port values; a host with none left is idle (log entry 1). -/
def presentNext (s : State) : State :=
  match s.schedule with
  | [] => { s with ports := Ports.idle }
  | p :: rest => { s with ports := p, schedule := rest }

end Sys2Proof.Machine
end

