-- ==== Sys2Proof/Machine/Operands.lean ====
section
/-! DEFINITION. The operand forms: assembly from the ports (spec/30_encoding.md R66), conversion and routing of the
right operand (R67), and the common execution of ADD and SUB (spec/41_add.md R103, spec/42_sub.md R123). -/

namespace Sys2Proof.Machine

/-- The two arithmetic operations. -/
inductive ArithOp where
  | add
  | sub
  deriving DecidableEq, Repr

/-- The right operand of ADD and SUB, by `SRC` (R62). -/
inductive RightOperand where
  /-- `.V`: the value operand B. -/
  | value
  /-- `.U`: `n` as a native unsigned integer. -/
  | unsigned
  /-- `.S`: `n` as a native signed integer. -/
  | signed
  deriving DecidableEq, Repr

/-- The value operand B (R66). -/
def operandB (p : Ports) : B33 where
  msb17 := p.bMsb17
  lsb16 := p.bLsb16

/-- `u(n)` (R66). -/
def unsignedN (p : Ports) : Nat :=
  p.n.toNat

/-- `s(n)` (R66): two's complement. -/
def signedN (p : Ports) : Int :=
  if p.n.getLsbD 31 then (p.n.toNat : Int) - 2 ^ 32 else p.n.toNat

/-- `m = 2^32 − n`, the absolute value of a negative `s(n)` as a 32-bit unsigned value (R67). -/
def negatedMagnitude (p : Ports) : BitVec 32 :=
  BitVec.ofNat 32 (2 ^ 32 - p.n.toNat)

/-- The other operation, to which a negative signed operand is routed (R67). -/
def ArithOp.swap : ArithOp → ArithOp
  | .add => .sub
  | .sub => .add

/-- `conv(op, SRC)` (R67): the operand Q and the operation performed. `rollover` is the parameter
`SIGNED_NEG_ROLLOVER` (R7). -/
def convert (rollover : BitVec 1) (op : ArithOp) (src : RightOperand) (p : Ports) : B33 × ArithOp :=
  match src with
  | .value => (operandB p, op)
  | .unsigned => (mkB33 0#1 p.n, op)
  | .signed =>
    if 0 ≤ signedN p then (mkB33 1#1 p.n, op)
    else (mkB33 rollover (negatedMagnitude p), op.swap)

/-- The adder or the subtractor. -/
def applyArith : ArithOp → B33 → B33 → B33
  | .add, a, b => add33 a b
  | .sub, a, b => sub33 a b

/-- `res` of R103 and R123. -/
def arithResult (rollover : BitVec 1) (op : ArithOp) (src : RightOperand) (r : B33) (p : Ports) : B33 :=
  let c := convert rollover op src p
  applyArith c.2 r c.1

/-- A form with `W = 0`: the result on `out.y`, R unchanged (R103, R123). -/
def arithForm (op : ArithOp) (src : RightOperand) (s : State) : State :=
  writeOut (arithResult Config.signedNegRollover op src s.R s.ports) noRelations s

/-- A compound form, `W = 1`: the result on `out.y` and in R, the old R its left operand (R103, R123). -/
def compoundForm (op : ArithOp) (src : RightOperand) (s : State) : State :=
  loadR (arithResult Config.signedNegRollover op src s.R s.ports) s

end Sys2Proof.Machine
end

