-- ==== Sys2Proof/Machine/Add.lean ====
section
/-! DEFINITION. The six ADD commands (spec/41_add.md R105 to R110). -/

namespace Sys2Proof.Machine

/-- ADD.V (R105): y = R + B; R unchanged. -/
def execAddV (s : State) : Host.Outcome State Fault Refusal :=
  .next (arithForm .add .value s)

/-- ADDW.V (R106): R <- R + B. -/
def execAddwV (s : State) : Host.Outcome State Fault Refusal :=
  .next (compoundForm .add .value s)

/-- ADD.U (R107): y = R + u(n); R unchanged. -/
def execAddU (s : State) : Host.Outcome State Fault Refusal :=
  .next (arithForm .add .unsigned s)

/-- ADDW.U (R108): R <- R + u(n). -/
def execAddwU (s : State) : Host.Outcome State Fault Refusal :=
  .next (compoundForm .add .unsigned s)

/-- ADD.S (R109): y = R + signed n, routed by R67; R unchanged. -/
def execAddS (s : State) : Host.Outcome State Fault Refusal :=
  .next (arithForm .add .signed s)

/-- ADDW.S (R110): R <- R + signed n, routed by R67. -/
def execAddwS (s : State) : Host.Outcome State Fault Refusal :=
  .next (compoundForm .add .signed s)

end Sys2Proof.Machine
end

