-- ==== Sys2Proof/Machine/Compare.lean ====
section
/-! DEFINITION. CMP (spec/43_compare.md R142). -/

namespace Sys2Proof.Machine

/-- CMP (R142): the six relations of R against B on `out.rel`; R unchanged and on `out.y`. -/
def execCmp (s : State) : Host.Outcome State Fault Refusal :=
  .next (writeOut s.R (relVector s.R (operandB s.ports)) s)

end Sys2Proof.Machine
end

