-- ==== Sys2Proof/Machine/Construct.lean ====
section
/-! DEFINITION. NOP, CLR, LD32, LD33 and LDV (spec/40_construct_access.md R80 to R84). -/

namespace Sys2Proof.Machine

/-- NOP (R80): R kept, `out` rewritten. -/
def execNop (s : State) : Host.Outcome State Fault Refusal :=
  .next (writeOut s.R noRelations s)

/-- CLR (R81): R <- ZERO. -/
def execClr (s : State) : Host.Outcome State Fault Refusal :=
  .next (loadR zero33 s)

/-- LD32 (R82): R <- mk(0, n). -/
def execLd32 (s : State) : Host.Outcome State Fault Refusal :=
  .next (loadR (mkB33 0#1 s.ports.n) s)

/-- LD33 (R83): R <- mk(n_hi, n). -/
def execLd33 (s : State) : Host.Outcome State Fault Refusal :=
  .next (loadR (mkB33 s.ports.nHi s.ports.n) s)

/-- LDV (R84): R <- B, both fields verbatim. -/
def execLdv (s : State) : Host.Outcome State Fault Refusal :=
  .next (loadR (operandB s.ports) s)

end Sys2Proof.Machine
end

