-- ==== Sys2Proof/Machine/Sub.lean ====
section
/-! DEFINITION. The six SUB commands (spec/42_sub.md R125 to R130). -/

namespace Sys2Proof.Machine

/-- SUB.V (R125): y = R − B; R unchanged. -/
def execSubV (s : State) : Host.Outcome State Fault Refusal :=
  .next (arithForm .sub .value s)

/-- SUBW.V (R126): R <- R − B. -/
def execSubwV (s : State) : Host.Outcome State Fault Refusal :=
  .next (compoundForm .sub .value s)

/-- SUB.U (R127): y = R − u(n); R unchanged. -/
def execSubU (s : State) : Host.Outcome State Fault Refusal :=
  .next (arithForm .sub .unsigned s)

/-- SUBW.U (R128): R <- R − u(n). -/
def execSubwU (s : State) : Host.Outcome State Fault Refusal :=
  .next (compoundForm .sub .unsigned s)

/-- SUB.S (R129): y = R − signed n, routed by R67; R unchanged. -/
def execSubS (s : State) : Host.Outcome State Fault Refusal :=
  .next (arithForm .sub .signed s)

/-- SUBW.S (R130): R <- R − signed n, routed by R67. -/
def execSubwS (s : State) : Host.Outcome State Fault Refusal :=
  .next (compoundForm .sub .signed s)

end Sys2Proof.Machine
end

