-- ==== Sys2Proof/Machine/Dispatch.lean ====
section
/-! DEFINITION. One arm for each command (spec/30_encoding.md R70). -/

namespace Sys2Proof.Machine

def exec (i : Instr) (s : State) : Host.Outcome State Fault Refusal :=
  match i with
  | .nop => Sys2Proof.Machine.execNop s
  | .clr => Sys2Proof.Machine.execClr s
  | .ld32 => Sys2Proof.Machine.execLd32 s
  | .ld33 => Sys2Proof.Machine.execLd33 s
  | .ldv => Sys2Proof.Machine.execLdv s
  | .addV => Sys2Proof.Machine.execAddV s
  | .addwV => Sys2Proof.Machine.execAddwV s
  | .addU => Sys2Proof.Machine.execAddU s
  | .addwU => Sys2Proof.Machine.execAddwU s
  | .addS => Sys2Proof.Machine.execAddS s
  | .addwS => Sys2Proof.Machine.execAddwS s
  | .subV => Sys2Proof.Machine.execSubV s
  | .subwV => Sys2Proof.Machine.execSubwV s
  | .subU => Sys2Proof.Machine.execSubU s
  | .subwU => Sys2Proof.Machine.execSubwU s
  | .subS => Sys2Proof.Machine.execSubS s
  | .subwS => Sys2Proof.Machine.execSubwS s
  | .cmp => Sys2Proof.Machine.execCmp s

end Sys2Proof.Machine
end

