-- ==== Sys2Proof/Machine/Edge.lean ====
section
/-! DEFINITION. One rising edge of `clk` (spec/70_reset_and_hazards.md R180, R185, R186; spec/60_exceptions.md R164):
everything `step` does, and the placing of a command on the ports. -/

namespace Sys2Proof.Machine

/-- An executed edge (R185): a legal word runs its command, an illegal one raises IllegalCommand (R160). -/
def executeWord (s : State) : Host.Outcome State Fault Refusal :=
  match decode s.ports.cmd with
  | .ok i => exec i s
  | .error _ => .next (takeIllegalCommand s)

/-- What an edge does to R and `out`, in the priority of R164: reset, then nothing where no command is valid (R186),
then the command; before any reset a command is refused (R183). -/
def edgeEffect (s : State) : Host.Outcome State Fault Refusal :=
  if s.ports.rst then .next (resetEdge s)
  else if !s.ports.cmdValid then .next s
  else if !s.resetSeen then .refused .commandBeforeReset
  else executeWord s

/-- One rising edge: its effect, after which the host presents its next port values. -/
def clockEdge (s : State) : Host.Outcome State Fault Refusal :=
  match edgeEffect s with
  | .next t => .next (presentNext t)
  | .fault f => .fault f
  | .refused r => .refused r

/-- The host presents the command word at the coming edge (R60, R185), the operand ports as they are. -/
def placeCommand (w : CommandWord) (s : State) : State :=
  { s with ports := { s.ports with rst := false, cmdValid := true, cmd := w } }

/-- A command at the coming edge of a block that has been reset, so that this very edge executes it (R183, R185). -/
def placeExecuted (w : CommandWord) (s : State) : State :=
  placeCommand w { s with resetSeen := true }

end Sys2Proof.Machine
end

