-- ==== Sys2Proof/Machine/Step.lean ====
section
/-! DEFINITION. The step: one rising edge of `clk` (spec/70_reset_and_hazards.md R185). -/

namespace Sys2Proof.Machine

/-- One step (R10, R185, R186, R180). -/
def step (s : State) : Host.Outcome State Fault Refusal :=
  clockEdge s

/-- The host drives a row's word as the command of the coming edge; every command is one 8-bit word (R65), so the
bits above it are not part of it. The operand ports, R and `out` stay as they are; a block that no reset has reached
counts as reset, since before a reset no command runs (R183). -/
def State.withFetchWord (s : State) (_nbits w : Nat) : State :=
  placeExecuted (BitVec.ofNat 8 w) s

end Sys2Proof.Machine
end

