-- ==== Sys2Proof/Machine/Assembler.lean ====
section
/-! DEFINITION. The assembler (spec/30_encoding.md R68, R69): what a line drives on the ports, the expansion of the
pseudo-instructions, and the reading of a line's text. Host-side; the machine does not use it. -/

namespace Sys2Proof.Machine

/-- A command line drives its word and the operands it writes; a port it does not write keeps the value of `draw`,
the host's free draw (R68). -/
def driveLine (c : CommandLine) (draw : Ports) : Ports where
  rst := false
  cmdValid := true
  cmd := encode c.instr
  bMsb17 := match c.b with
    | some v => (BitVec.ofNat 33 v).extractLsb' 16 17
    | none => draw.bMsb17
  bLsb16 := match c.b with
    | some v => (BitVec.ofNat 33 v).extractLsb' 0 16
    | none => draw.bLsb16
  n := match c.n with
    | some v => BitVec.ofInt 32 v
    | none => draw.n
  nHi := match c.hi with
    | some v => BitVec.ofNat 1 v
    | none => draw.nHi

/-- The expansions of R69; a command line stands for itself. -/
def expandLine : AsmLine → CommandLine
  | .command c => c
  | .ldi v => { instr := .ld33, b := none, n := some ((v % 2 ^ 32 : Nat) : Int), hi := some (v / 2 ^ 32) }
  | .mov b => { instr := .ldv, b := some b, n := none, hi := none }
  | .inc => { instr := .addwU, b := none, n := some 1, hi := none }
  | .dec => { instr := .subwU, b := none, n := some 1, hi := none }
  | .tst => { instr := .cmp, b := some 0, n := none, hi := none }

/-- The mnemonic of a command (R70). -/
def mnemonic : Instr → List Char
  | .nop => ['N', 'O', 'P']
  | .clr => ['C', 'L', 'R']
  | .ld32 => ['L', 'D', '3', '2']
  | .ld33 => ['L', 'D', '3', '3']
  | .ldv => ['L', 'D', 'V']
  | .addV => ['A', 'D', 'D', '.', 'V']
  | .addwV => ['A', 'D', 'D', 'W', '.', 'V']
  | .addU => ['A', 'D', 'D', '.', 'U']
  | .addwU => ['A', 'D', 'D', 'W', '.', 'U']
  | .addS => ['A', 'D', 'D', '.', 'S']
  | .addwS => ['A', 'D', 'D', 'W', '.', 'S']
  | .subV => ['S', 'U', 'B', '.', 'V']
  | .subwV => ['S', 'U', 'B', 'W', '.', 'V']
  | .subU => ['S', 'U', 'B', '.', 'U']
  | .subwU => ['S', 'U', 'B', 'W', '.', 'U']
  | .subS => ['S', 'U', 'B', '.', 'S']
  | .subwS => ['S', 'U', 'B', 'W', '.', 'S']
  | .cmp => ['C', 'M', 'P']

/-- The eighteen commands, in the order of R70. -/
def allInstrs : List Instr :=
  [.nop, .clr, .ld32, .ld33, .ldv, .addV, .addwV, .addU, .addwU, .addS, .addwS,
    .subV, .subwV, .subU, .subwU, .subS, .subwS, .cmp]

/-- The command a mnemonic names. -/
def readMnemonic (w : List Char) : Option Instr :=
  allInstrs.find? fun i => mnemonic i == w

/-- A text cut at every `sep`. -/
def cutAt (sep : Char) : List Char → List (List Char)
  | [] => [[]]
  | c :: cs =>
    if c = sep then [] :: cutAt sep cs
    else
      match cutAt sep cs with
      | [] => [[c]]
      | w :: ws => (c :: w) :: ws

/-- A text without the blanks at its two ends. -/
def trimBlanks (t : List Char) : List Char :=
  ((t.dropWhile (· == ' ')).reverse.dropWhile (· == ' ')).reverse

/-- The value of a decimal or hexadecimal digit, of either case. -/
def digitValue (c : Char) : Option Nat :=
  if '0' ≤ c ∧ c ≤ '9' then some (c.toNat - '0'.toNat)
  else if 'a' ≤ c ∧ c ≤ 'f' then some (c.toNat - 'a'.toNat + 10)
  else if 'A' ≤ c ∧ c ≤ 'F' then some (c.toNat - 'A'.toNat + 10)
  else none

/-- Digits in a base, `_` allowed between two digits (R68); `afterDigit` says whether a digit was just read. -/
def readDigits (base : Nat) : List Char → Nat → Bool → Option Nat
  | [], acc, afterDigit => if afterDigit then some acc else none
  | c :: cs, acc, afterDigit =>
    if c = '_' then (if afterDigit then readDigits base cs acc false else none)
    else
      match digitValue c with
      | none => none
      | some d => if d < base then readDigits base cs (acc * base + d) true else none

/-- A decimal or `0x` hexadecimal number (R68). -/
def readNat : List Char → Option Nat
  | '0' :: 'x' :: ds => readDigits 16 ds 0 false
  | ds => readDigits 10 ds 0 false

/-- A number that may carry a minus sign (R68: `n=-5`). -/
def readInt : List Char → Option Int
  | '-' :: ds => (readNat ds).map fun v => -(v : Int)
  | ds => (readNat ds).map fun v => (v : Int)

/-- One `operand=value` of a line; an operand is written at most once. -/
def readOperand (c : CommandLine) (w : List Char) : Option CommandLine :=
  match (cutAt '=' w).map trimBlanks with
  | [['b'], v] => if c.b.isSome then none else (readNat v).map fun x => { c with b := some x }
  | [['n'], v] => if c.n.isSome then none else (readInt v).map fun x => { c with n := some x }
  | [['h', 'i'], v] => if c.hi.isSome then none else (readNat v).map fun x => { c with hi := some x }
  | _ => none

/-- A command and the operands after it, separated by commas. -/
def readCommand (i : Instr) (operands : List Char) : Option CommandLine :=
  let bare : CommandLine := { instr := i, b := none, n := none, hi := none }
  if operands.isEmpty then some bare
  else ((cutAt ',' operands).map trimBlanks).foldlM readOperand bare

/-- `MNEMONIC [operand=value, ...]` (R68) or a pseudo-instruction (R69). -/
def readStatement (text : List Char) : Option AsmLine :=
  let t := trimBlanks text
  let word := t.takeWhile (· != ' ')
  let rest := trimBlanks (t.dropWhile (· != ' '))
  match readMnemonic word with
  | some i => (readCommand i rest).map AsmLine.command
  | none =>
    match word with
    | ['L', 'D', 'I'] => (readNat rest).map AsmLine.ldi
    | ['M', 'O', 'V'] =>
      match readCommand .ldv rest with
      | some { instr := _, b := some v, n := none, hi := none } => some (.mov v)
      | _ => none
    | ['I', 'N', 'C'] => if rest.isEmpty then some .inc else none
    | ['D', 'E', 'C'] => if rest.isEmpty then some .dec else none
    | ['T', 'S', 'T'] => if rest.isEmpty then some .tst else none
    | _ => none

/-- A statement beside the command byte its listing shows: the byte is the statement's own. -/
def checkByte (byte statement : List Char) : Option AsmLine :=
  match readNat (trimBlanks byte), readStatement statement with
  | some v, some l => if (encode (expandLine l).instr).toNat = v then some l else none
  | _, _ => none

/-- One line (R68). A listing line may show the command byte in brackets, before the statement or after it. -/
def readLine (text : List Char) : Option AsmLine :=
  match cutAt '[' text with
  | [statement] => readStatement statement
  | [before, u] =>
    match cutAt ']' u with
    | [byte, after] =>
      if (trimBlanks before).isEmpty then checkByte byte after
      else if (trimBlanks after).isEmpty then checkByte byte before
      else none
    | _ => none
  | _ => none

/-- The port values a line of text stands for: read, checked (R68's ranges), expanded (R69) and driven. -/
def assemble (text : List Char) (draw : Ports) : Option Ports :=
  match readLine text with
  | some l => if l.wellFormed then some (driveLine (expandLine l) draw) else none
  | none => none

end Sys2Proof.Machine
end

