-- ==== Sys2Proof/Machine/Instances.lean ====
section
/-! DEFINITION. Independent instances of the block (spec/10_state.md R32, spec/60_exceptions.md R171). -/

namespace Sys2Proof.Machine

/-- An edge of instance `k` alone. Instances share no state (R32), so the others are as they were; an index that
names no instance steps nothing. -/
def stepInstance (k : Nat) (blocks : List State) : Host.Outcome (List State) Fault Refusal :=
  match blocks[k]? with
  | none => .next blocks
  | some s =>
    match step s with
    | .next t => .next (blocks.set k t)
    | .fault f => .fault f
    | .refused r => .refused r

end Sys2Proof.Machine
end

