-- ==== Sys2Proof/Machine/TextForm.lean ====
section
/-! DEFINITION. The canonical text form, a host-side function of a value (spec/44_text_form.md R150 to R154). The block
has no text port (spec/00_scope.md R5 d). -/

namespace Sys2Proof.Machine

/-- The digits of R150, lowercase. -/
def hexDigits : List Char :=
  ['0', '1', '2', '3', '4', '5', '6', '7', '8', '9', 'a', 'b', 'c', 'd', 'e', 'f']

/-- `hexdigit(d)` (R150). -/
def hexDigit (d : BitVec 4) : Char :=
  hexDigits.getD d.toNat '0'

/-- The hex digit of `LOW32(x)` whose lowest bit is bit `lo`. -/
def lowDigit (x : B33) (lo : Nat) : Char :=
  hexDigit ((lowWord32 x).extractLsb' lo 4)

/-- `FMT(x)` as its characters, in string order (R150): `0x`, the rollover digit, eight digits of `LOW32`. -/
def fmtChars (x : B33) : List Char :=
  ['0', 'x', hexDigit (if rolloverBit x then 1#4 else 0#4),
    lowDigit x 28, lowDigit x 24, lowDigit x 20, lowDigit x 16,
    lowDigit x 12, lowDigit x 8, lowDigit x 4, lowDigit x 0]

/-- `FMT(x)` (R150). -/
def fmtString (x : B33) : String :=
  String.ofList (fmtChars x)

/-- The ASCII code of a character of `FMT` (R151). -/
def asciiByte (c : Char) : BitVec 8 :=
  BitVec.ofNat 8 c.toNat

/-- The bytes a host writes for `FMT(x)`, in string order (R151). -/
def fmtBytes (x : B33) : List (BitVec 8) :=
  (fmtChars x).map asciiByte

end Sys2Proof.Machine
end

