-- ==== Sys2Proof/Safety.lean ====
section
/-! DEFINITION. The terms that claims use: legal host input, fault-free states, and the invariant of a run. -/

namespace Sys2Proof.Machine

/-- An edge that presents no illegal command: a reset, an idle edge, or a legal word (spec/30_encoding.md R63,
spec/60_exceptions.md R164). -/
def edgeLegal (p : Ports) : Bool :=
  p.rst || !p.cmdValid || (splitFields p.cmd).legal

/-- No edge the host has yet to drive presents an illegal command: the premise of R161. -/
def hostLegal (s : State) : Bool :=
  edgeLegal s.ports && s.schedule.all edgeLegal

/-- A correct end state of a run: one whose run is not faulted. "The faulted run is never a correct end state"
(spec/60_exceptions.md R161). -/
def correctEnd (s : State) : Prop :=
  s.faultMark = none

/-- The coming edge executes a step (spec/70_reset_and_hazards.md R185) of a block that has been reset (R183). -/
def executes (s : State) : Bool :=
  !s.ports.rst && s.ports.cmdValid && s.resetSeen

/-- The two port values agree on every operand the command reads (spec/30_encoding.md R66). -/
def sameOperands (i : Instr) (p q : Ports) : Prop :=
  (i.usesB = true → p.bMsb17 = q.bMsb17 ∧ p.bLsb16 = q.bLsb16) ∧
    (i.nativeUse ≠ .ignored → p.n = q.n) ∧ (i.usesHi = true → p.nHi = q.nHi)

/-- The four values `out.rel` takes: no relations (R144), and the vectors of equal, less and greater (R141). -/
def relShape (r : BitVec 6) : Prop :=
  r = 0b000000#6 ∨ r = 0b101001#6 ∨ r = 0b001110#6 ∨ r = 0b110010#6

/-- What holds at every point of a run: the block has been reset, `out.rel` is one of its four values, and an error
shown on `out.err` stands in the fault mark (R161). -/
def RunInvariant (s : State) : Prop :=
  s.resetSeen = true ∧ relShape s.out.rel ∧ (s.out.err = true → s.faultMark = some .illegalCommand)

end Sys2Proof.Machine
end

