-- ==== Sys2Proof/Certificates/Slice0/Obligations.lean ====
section
/-! DEFINITION. The statements about B33CORE for the provers. Each docstring names the rule of spec/ it formalises,
or says that the statement rests on a choice of the model and names the log entry. -/

open Sys2Proof Sys2Proof.Machine

/-! ## Reset, edges and the exception -/

/-- spec/70_reset_and_hazards.md R181: R, `out` and every output port after reset. -/
def Obligations.ResetStateShowsZeroOnEveryOutput : Prop :=
  State.reset.R = { msb17 := 0#17, lsb16 := 0#16 } ∧
  State.reset.out = { y := { msb17 := 0#17, lsb16 := 0#16 }, rel := 0b000000#6, err := false } ∧
  outputPorts State.reset =
    { yMsb17 := 0#17, yLsb16 := 0#16, rel := 0b000000#6, err := false, rawMsb17 := 0#17, rawLsb16 := 0#16,
      roll := false, lowbit := false, high32 := 0#32, low32 := 0#32 }

/-- R180: a reset edge gives R and `out` their reset values, whatever the other ports, R and `out` hold. -/
def Obligations.ResetEdgeTakesResetValues : Prop :=
  ∀ s : State, s.ports.rst = true →
    ∃ t, step s = .next t ∧ t.R = { msb17 := 0#17, lsb16 := 0#16 } ∧
      t.out = { y := { msb17 := 0#17, lsb16 := 0#16 }, rel := 0b000000#6, err := false }

/-- R186: an edge with `rst = 0` and `cmd_valid = 0` keeps R and `out`, where NOP rewrites `out`: some state has an
`out` that NOP changes. -/
def Obligations.IdleEdgeKeepsRegisterAndOutput : Prop :=
  (∀ s : State, s.ports.rst = false → s.ports.cmdValid = false →
    ∃ t, step s = .next t ∧ t.R = s.R ∧ t.out = s.out) ∧
  (∃ s t : State, exec .nop s = .next t ∧ t.out ≠ s.out)

/-- The model's form of R185 (log entries 1 and 3): an executed edge runs the command its word decodes to, after which
the host presents its next port values. -/
def Obligations.StepRunsTheDecodedCommand : Prop :=
  ∀ (s : State) (i : Instr), executes s = true → decode s.ports.cmd = .ok i →
    step s =
      match exec i s with
      | .next t => .next (presentNext t)
      | .fault f => .fault f
      | .refused r => .refused r

/-- The model's choice (log entry 1): after every edge the ports hold the first values of the host's schedule, and a
host whose schedule is empty is idle. -/
def Obligations.EdgePresentsTheNextPortValues : Prop :=
  ∀ s t : State, step s = .next t →
    (s.schedule = [] → t.ports = Ports.idle ∧ t.schedule = []) ∧
    (∀ p ps, s.schedule = p :: ps → t.ports = p ∧ t.schedule = ps)

/-- spec/60_exceptions.md R160: an executed edge shows an error exactly when its word is illegal; no legal command
raises the exception, whose cause code is 1. -/
def Obligations.ErrorIsRaisedExactlyByIllegalWords : Prop :=
  causeCode .illegalCommand = 1 ∧
  (∀ s : State, executes s = true →
    ∃ t, step s = .next t ∧ (t.out.err = true ↔ (splitFields s.ports.cmd).legal = false)) ∧
  (∀ (i : Instr) (s t : State), exec i s = .next t → t.out.err = false)

/-- R161: an illegal command keeps R, `out.y` and `out.rel`, sets `out.err` and records the fault mark of the run;
a run with that mark is never a correct end; the next executed legal step clears `out.err`, and no executed or idle
step clears the mark. -/
def Obligations.IllegalCommandChangesOnlyErrAndIsRemembered : Prop :=
  (∀ s : State, executes s = true → (splitFields s.ports.cmd).legal = false →
    ∃ t, step s = .next t ∧ t.R = s.R ∧ t.out.y = s.out.y ∧ t.out.rel = s.out.rel ∧ t.out.err = true ∧
      t.faultMark = some .illegalCommand ∧ ¬ correctEnd t) ∧
  (∀ s : State, executes s = true → (splitFields s.ports.cmd).legal = true →
    ∃ t, step s = .next t ∧ t.out.err = false) ∧
  (∀ (s t : State) (f : Fault), s.ports.rst = false → step s = .next t → s.faultMark = some f →
    t.faultMark = some f)

/-- The model's reading of R161 (DEDUCED, log entry 2): a reset edge keeps the fault mark of the run. -/
def Obligations.ResetEdgeKeepsTheFaultMark : Prop :=
  ∀ s : State, s.ports.rst = true → ∃ t, step s = .next t ∧ t.faultMark = s.faultMark ∧ t.resetSeen = true

/-- R183 in the model's form (log entry 3): a command before any reset is refused, and the model refuses nothing
else. -/
def Obligations.OnlyCommandsBeforeResetAreRefused : Prop :=
  ∀ (s : State) (r : Refusal),
    step s = .refused r ↔
      (r = .commandBeforeReset ∧ s.ports.rst = false ∧ s.ports.cmdValid = true ∧ s.resetSeen = false)

/-- R24 and R162 ("all operations are total"): a block that has been reset has a next state at every edge, for every
value of every port, and stays reset. -/
def Obligations.EveryEdgeAfterResetHasANextState : Prop :=
  ∀ s : State, s.resetSeen = true → ∃ t, step s = .next t ∧ t.resetSeen = true

/-- The model's form of R45 and R187 (log entry 1 for the host's schedule): the command of the next edge reads the R
that the command before it wrote, with no spacing between the two. -/
def Obligations.BackToBackCommandsChain : Prop :=
  ∀ (s u : State) (i j : Instr) (p : Ports) (ps : List Ports),
    executes s = true → decode s.ports.cmd = .ok i → exec i s = .next u →
    s.schedule = p :: ps → p.rst = false → p.cmdValid = true → decode p.cmd = .ok j →
    ∃ v, exec j { u with ports := p, schedule := ps } = .next v ∧ core.run 2 s = .next (presentNext v)

/-! ## Encoding -/

/-- spec/30_encoding.md R63: the legal words are the eighteen of R70, and the decoder accepts those and no other. -/
def Obligations.LegalWordsAreTheEighteen : Prop :=
  ∀ w : CommandWord,
    ((splitFields w).legal = true ↔
      w ∈ [0x00#8, 0x10#8, 0x20#8, 0x30#8, 0x40#8, 0x50#8, 0x52#8, 0x54#8, 0x56#8, 0x58#8, 0x5A#8, 0x60#8, 0x62#8,
        0x64#8, 0x66#8, 0x68#8, 0x6A#8, 0x70#8]) ∧
    ((decode w).toOption.isSome = true ↔ (splitFields w).legal = true)

/-- The words of R70, written out, decode to the commands the table gives them. -/
def Obligations.TableWordsDecodeToTheirCommands : Prop :=
  decode 0b00000000#8 = .ok .nop ∧ decode 0b00100000#8 = .ok .ld32 ∧ decode 0b00110000#8 = .ok .ld33 ∧
  decode 0b01010010#8 = .ok .addwV ∧ decode 0b01010100#8 = .ok .addU ∧ decode 0b01011010#8 = .ok .addwS ∧
  decode 0b01100000#8 = .ok .subV ∧ decode 0b01100110#8 = .ok .subwU ∧ decode 0b01101000#8 = .ok .subS ∧
  decode 0b01110000#8 = .ok .cmp

/-- R60 and R70: decoding an encoded command gives it back, and an accepted word is the encoding of its command. -/
def Obligations.DecodeAndEncodeAreInverse : Prop :=
  (∀ i : Instr, decode (encode i) = .ok i) ∧
  (∀ (w : CommandWord) (i : Instr), decode w = .ok i → encode i = w)

/-- R68: what a well-formed command line drives is read back from the ports: the word decodes to its command, each
operand it writes has its value under the command's reading (R66), and each port it does not write keeps the host's
draw. -/
def Obligations.DrivenLinesReadBackFromThePorts : Prop :=
  ∀ (c : CommandLine) (draw : Ports), c.wellFormed = true →
    (driveLine c draw).rst = false ∧ (driveLine c draw).cmdValid = true ∧
    decode (driveLine c draw).cmd = .ok c.instr ∧
    (∀ v, c.b = some v → (operandB (driveLine c draw)).val = v) ∧
    (c.b = none → operandB (driveLine c draw) = operandB draw) ∧
    (c.instr.nativeUse = .unsigned → c.n = some (unsignedN (driveLine c draw) : Int)) ∧
    (c.instr.nativeUse = .signed → c.n = some (signedN (driveLine c draw))) ∧
    (c.instr.nativeUse = .ignored → (driveLine c draw).n = draw.n) ∧
    (∀ v, c.hi = some v → (driveLine c draw).nHi.toNat = v) ∧
    (c.hi = none → (driveLine c draw).nHi = draw.nHi)

/-- R69: each of the five pseudo-instructions expands to the command line the table gives it, with `v[32]` and
`v[31:0]` as bits for LDI; well-formed lines expand to well-formed command lines; and on a block that has been reset
each has the effect the table gives it. -/
def Obligations.PseudoInstructionsHaveTheirEffects : Prop :=
  (∀ v, v < 2 ^ 33 → expandLine (.ldi v) =
    { instr := .ld33, b := none, n := some (((BitVec.ofNat 33 v).extractLsb' 0 32).toNat : Int),
      hi := some ((BitVec.ofNat 33 v).extractLsb' 32 1).toNat }) ∧
  (∀ v, expandLine (.mov v) = { instr := .ldv, b := some v, n := none, hi := none }) ∧
  expandLine .inc = { instr := .addwU, b := none, n := some 1, hi := none } ∧
  expandLine .dec = { instr := .subwU, b := none, n := some 1, hi := none } ∧
  expandLine .tst = { instr := .cmp, b := some 0, n := none, hi := none } ∧
  ∀ (s : State) (draw : Ports), s.resetSeen = true →
    (∀ l : AsmLine, l.wellFormed = true → (expandLine l).wellFormed = true) ∧
    (∀ v, v < 2 ^ 33 → ∃ t, step { s with ports := driveLine (expandLine (.ldi v)) draw } = .next t ∧
      t.R = fromNative (BitVec.ofNat 33 v) ∧ t.R.val = v) ∧
    (∀ v, v < 2 ^ 33 → ∃ t, step { s with ports := driveLine (expandLine (.mov v)) draw } = .next t ∧
      t.R.val = v) ∧
    (∃ t, step { s with ports := driveLine (expandLine .inc) draw } = .next t ∧
      t.R.val = (s.R.val + 1) % 2 ^ 33) ∧
    (∃ t, step { s with ports := driveLine (expandLine .dec) draw } = .next t ∧
      (t.R.val : Int) = ((s.R.val : Int) - 1) % 2 ^ 33) ∧
    (∃ t, step { s with ports := driveLine (expandLine .tst) draw } = .next t ∧
      t.out.rel = relVector s.R zero33 ∧ t.R = s.R)

/-! ## Values and accessors -/

/-- spec/00_scope.md R9 and spec/10_state.md R21: the pair of fields and the number `val` determine each other over
[0, 2^33 − 1]. -/
def Obligations.FieldsAndValueDetermineEachOther : Prop :=
  (∀ x : B33, x.val < 2 ^ 33) ∧ (∀ v, v < 2 ^ 33 → ∃ x : B33, x.val = v ∧ ∀ y : B33, y.val = v → y = x) ∧
  (∀ (h : BitVec 1) (v : BitVec 32), (mkB33 h v).val = h.toNat * 2 ^ 32 + v.toNat)

/-- spec/40_construct_access.md R96: both round trips, and the one through LD33 and the ports `roll` and `low32`. -/
def Obligations.NativeRoundTrips : Prop :=
  (∀ x : B33, fromNative (BitVec.ofNat 33 (toNative x)) = x) ∧
  (∀ v : BitVec 33, toNative (fromNative v) = v.toNat) ∧
  (∀ (s : State) (v : BitVec 33), s.ports.nHi = v.extractLsb' 32 1 → s.ports.n = v.extractLsb' 0 32 →
    ∃ t, exec .ld33 s = .next t ∧
      (if (outputPorts t).roll then 2 ^ 32 else 0) + (outputPorts t).low32.toNat = v.toNat)

/-- R91, R92, R93 and R94: `roll`, `low32`, `lowbit` and `high32` are the bits of R the rules name, and the functions
of `val(R)` the rules give; `toNative` is `val`. -/
def Obligations.AccessorPortsAreFunctionsOfTheValue : Prop :=
  ∀ s : State,
    (outputPorts s).roll = s.R.msb17.getLsbD 16 ∧
    ((outputPorts s).roll = true ↔ 2 ^ 32 ≤ s.R.val) ∧
    (outputPorts s).low32 = s.R.msb17.extractLsb' 0 16 ++ s.R.lsb16 ∧
    (outputPorts s).low32.toNat = s.R.val % 2 ^ 32 ∧
    toNative s.R = (if (outputPorts s).roll then 2 ^ 32 else 0) + (outputPorts s).low32.toNat ∧
    toNative s.R = s.R.val ∧
    (outputPorts s).lowbit = s.R.lsb16.getLsbD 0 ∧
    ((outputPorts s).lowbit = true ↔ s.R.val % 2 = 1) ∧
    (outputPorts s).high32 = s.R.msb17.extractLsb' 1 16 ++ s.R.lsb16 ∧
    (outputPorts s).high32.toNat = (((s.R.val >>> 17) <<< 16) ||| (s.R.val &&& 0xFFFF))

/-- R90 and R95: `rawParts()` is R unmodified, and two states with one R show the same accessor outputs whatever
else differs. -/
def Obligations.AccessorPortsReadTheRegisterAlone : Prop :=
  (∀ s : State, (outputPorts s).rawMsb17 = s.R.msb17 ∧ (outputPorts s).rawLsb16 = s.R.lsb16) ∧
  (∀ s t : State, s.R = t.R →
    (outputPorts s).rawMsb17 = (outputPorts t).rawMsb17 ∧ (outputPorts s).rawLsb16 = (outputPorts t).rawLsb16 ∧
    (outputPorts s).roll = (outputPorts t).roll ∧ (outputPorts s).lowbit = (outputPorts t).lowbit ∧
    (outputPorts s).high32 = (outputPorts t).high32 ∧ (outputPorts s).low32 = (outputPorts t).low32)

/-! ## The adder, the subtractor and the comparator -/

/-- spec/41_add.md R100: the low sum, its carry into the high sum, each masked to its field. -/
def Obligations.AdderCorrectsTheCarry : Prop :=
  ∀ a b : B33,
    (add33 a b).lsb16.toNat = (a.lsb16.toNat + b.lsb16.toNat) % 2 ^ 16 ∧
    (add33 a b).msb17.toNat =
      (a.msb17.toNat + b.msb17.toNat + (a.lsb16.toNat + b.lsb16.toNat) / 2 ^ 16) % 2 ^ 17

/-- R101: the sum modulo 2^33, and the algebra of the adder. -/
def Obligations.AdderIsAdditionModulo : Prop :=
  ∀ a b c : B33,
    (add33 a b).val = (a.val + b.val) % 2 ^ 33 ∧
    add33 a b = add33 b a ∧
    add33 (add33 a b) c = add33 a (add33 b c) ∧
    add33 a zero33 = a ∧
    ((add33 a max33).val : Int) = ((a.val : Int) - 1) % 2 ^ 33

/-- spec/42_sub.md R120: on the GE branch the exact field differences with the borrow correction; on the LT branch
the recursive equation of the source. -/
def Obligations.SubtractorMeetsItsRecursiveRule : Prop :=
  ∀ a b : B33,
    (ge33 a b = true → b.lsb16.toNat ≤ a.lsb16.toNat →
      ((sub33 a b).msb17.toNat : Int) = (a.msb17.toNat : Int) - b.msb17.toNat ∧
      ((sub33 a b).lsb16.toNat : Int) = (a.lsb16.toNat : Int) - b.lsb16.toNat) ∧
    (ge33 a b = true → a.lsb16.toNat < b.lsb16.toNat →
      ((sub33 a b).msb17.toNat : Int) = (a.msb17.toNat : Int) - b.msb17.toNat - 1 ∧
      ((sub33 a b).lsb16.toNat : Int) = (a.lsb16.toNat : Int) - b.lsb16.toNat + 2 ^ 16) ∧
    (ge33 a b = false → sub33 a b = add33 (sub33 max33 b) (add33 a one33))

/-- R121: the difference modulo 2^33, never negative, on both branches. -/
def Obligations.SubtractorIsSubtractionModulo : Prop :=
  ∀ a b : B33,
    ((sub33 a b).val : Int) = ((a.val : Int) - b.val) % 2 ^ 33 ∧ (sub33 a b).val < 2 ^ 33

/-- R122: `SUB33(MAX33, b)` takes the GE branch and is the bitwise NOT of `b`, field by field. -/
def Obligations.SubtractingFromMaxComplements : Prop :=
  ∀ b : B33, ge33 max33 b = true ∧ sub33 max33 b = { msb17 := ~~~b.msb17, lsb16 := ~~~b.lsb16 } ∧
    (sub33 max33 b).msb17.toNat = 0x1FFFF - b.msb17.toNat ∧ (sub33 max33 b).lsb16.toNat = 0xFFFF - b.lsb16.toNat

/-- spec/43_compare.md R140: equality of both fields, lexicographic order on them, and the four derived relations. -/
def Obligations.ComparatorFollowsTheFields : Prop :=
  ∀ a b : B33,
    (eq33 a b = true ↔ a.msb17 = b.msb17 ∧ a.lsb16 = b.lsb16) ∧
    (lt33 a b = true ↔
      a.msb17.toNat < b.msb17.toNat ∨ (a.msb17 = b.msb17 ∧ a.lsb16.toNat < b.lsb16.toNat)) ∧
    le33 a b = (lt33 a b || eq33 a b) ∧ gt33 a b = !le33 a b ∧ ge33 a b = (gt33 a b || eq33 a b) ∧
    ne33 a b = !eq33 a b

/-- R143: `LT33` is a strict total order, and both relations are those of the values. -/
def Obligations.OrderIsTheStrictTotalOrderOfValues : Prop :=
  ∀ a b c : B33,
    (lt33 a b = true ↔ a.val < b.val) ∧ (eq33 a b = true ↔ a.val = b.val) ∧
    lt33 a a = false ∧ (lt33 a b = true → lt33 b c = true → lt33 a c = true) ∧
    (lt33 a b = true ∨ a = b ∨ lt33 b a = true)

/-- spec/30_encoding.md R67: the operand Q and the route of each operand kind, for either value of
`SIGNED_NEG_ROLLOVER`; the absolute value of a negative operand is exact, −2^31 among them. -/
def Obligations.OperandConversionRoutesByKind : Prop :=
  ∀ (rollover : BitVec 1) (op : ArithOp) (p : Ports),
    convert rollover op .value p = ({ msb17 := p.bMsb17, lsb16 := p.bLsb16 }, op) ∧
    convert rollover op .unsigned p = (mkB33 0#1 p.n, op) ∧
    (0 ≤ signedN p → convert rollover op .signed p = (mkB33 1#1 p.n, op)) ∧
    (signedN p < 0 → ∃ m : BitVec 32, m.toNat = 2 ^ 32 - p.n.toNat ∧ m.toNat = (signedN p).natAbs ∧
      convert rollover op .signed p = (mkB33 rollover m, if op = .add then .sub else .add)) ∧
    Config.signedNegRollover = 1#1

/-! ## The commands: each completes in every state, with the state it gives -/

/-- R80: NOP keeps R and rewrites `out`. -/
def Obligations.NopRewritesTheOutput : Prop :=
  decode 0x00#8 = .ok .nop ∧
  ∀ s : State, exec .nop s = .next { s with out := { y := s.R, rel := 0b000000#6, err := false } }

/-- R81: CLR writes ZERO, the reset value. -/
def Obligations.ClrWritesZero : Prop :=
  decode 0x10#8 = .ok .clr ∧ zero33 = State.reset.R ∧ zero33.val = 0 ∧
  ∀ s : State, exec .clr s =
    .next { s with R := zero33, out := { y := zero33, rel := 0b000000#6, err := false } }

/-- R82: LD32 loads `n` with rollover bit 0. -/
def Obligations.Ld32LoadsTheNativeValue : Prop :=
  decode 0x20#8 = .ok .ld32 ∧
  ∀ s : State, ∃ x : B33,
    x.msb17 = 0#1 ++ s.ports.n.extractLsb' 16 16 ∧ x.lsb16 = s.ports.n.extractLsb' 0 16 ∧
    x = mkB33 0#1 s.ports.n ∧ x.val = s.ports.n.toNat ∧ rolloverBit x = false ∧
    exec .ld32 s = .next { s with R := x, out := { y := x, rel := 0b000000#6, err := false } }

/-- R83: LD33 loads `n` with rollover bit `n_hi`. -/
def Obligations.Ld33LoadsRolloverAndNativeValue : Prop :=
  decode 0x30#8 = .ok .ld33 ∧
  ∀ s : State, ∃ x : B33,
    x.msb17 = s.ports.nHi ++ s.ports.n.extractLsb' 16 16 ∧ x.lsb16 = s.ports.n.extractLsb' 0 16 ∧
    x = mkB33 s.ports.nHi s.ports.n ∧ x.val = s.ports.nHi.toNat * 2 ^ 32 + s.ports.n.toNat ∧
    exec .ld33 s = .next { s with R := x, out := { y := x, rel := 0b000000#6, err := false } }

/-- R84: LDV copies both fields of B verbatim. -/
def Obligations.LdvCopiesBothFields : Prop :=
  decode 0x40#8 = .ok .ldv ∧
  ∀ (s : State) (x : B33), x.msb17 = s.ports.bMsb17 → x.lsb16 = s.ports.bLsb16 →
    exec .ldv s = .next { s with R := x, out := { y := x, rel := 0b000000#6, err := false } }

/-- R105 and R106: ADD.V gives `ADD33(R, B)`, the sum modulo 2^33, on `out.y`; ADDW.V gives it there and in R. -/
def Obligations.AddValueForms : Prop :=
  decode 0x50#8 = .ok .addV ∧ decode 0x52#8 = .ok .addwV ∧
  ∀ s : State, ∃ res : B33, res = add33 s.R (operandB s.ports) ∧
    res.val = (s.R.val + (operandB s.ports).val) % 2 ^ 33 ∧
    exec .addV s = .next { s with out := { y := res, rel := 0b000000#6, err := false } } ∧
    exec .addwV s = .next { s with R := res, out := { y := res, rel := 0b000000#6, err := false } }

/-- R107 and R108: ADD.U and ADDW.U add `u(n)`. -/
def Obligations.AddUnsignedForms : Prop :=
  decode 0x54#8 = .ok .addU ∧ decode 0x56#8 = .ok .addwU ∧
  ∀ s : State, ∃ res : B33, res = add33 s.R (mkB33 0#1 s.ports.n) ∧
    res.val = (s.R.val + s.ports.n.toNat) % 2 ^ 33 ∧
    exec .addU s = .next { s with out := { y := res, rel := 0b000000#6, err := false } } ∧
    exec .addwU s = .next { s with R := res, out := { y := res, rel := 0b000000#6, err := false } }

/-- R109 and R110, for `SIGNED_NEG_ROLLOVER = 1`, the value this hardware takes (R7): ADD.S and ADDW.S add
2^32 + `s(n)`, whatever the sign, by the routes the rules give. -/
def Obligations.AddSignedForms : Prop :=
  decode 0x58#8 = .ok .addS ∧ decode 0x5A#8 = .ok .addwS ∧
  ∀ s : State, ∃ res : B33,
    (0 ≤ signedN s.ports → res = add33 s.R (mkB33 1#1 s.ports.n)) ∧
    (signedN s.ports < 0 → res = sub33 s.R (mkB33 1#1 (BitVec.ofNat 32 (2 ^ 32 - s.ports.n.toNat)))) ∧
    (res.val : Int) = ((s.R.val : Int) + 2 ^ 32 + signedN s.ports) % 2 ^ 33 ∧
    exec .addS s = .next { s with out := { y := res, rel := 0b000000#6, err := false } } ∧
    exec .addwS s = .next { s with R := res, out := { y := res, rel := 0b000000#6, err := false } }

/-- R125 and R126: SUB.V gives `SUB33(R, B)`, the difference modulo 2^33, on `out.y`; SUBW.V gives it there and
in R. -/
def Obligations.SubValueForms : Prop :=
  decode 0x60#8 = .ok .subV ∧ decode 0x62#8 = .ok .subwV ∧
  ∀ s : State, ∃ res : B33, res = sub33 s.R (operandB s.ports) ∧
    (res.val : Int) = ((s.R.val : Int) - (operandB s.ports).val) % 2 ^ 33 ∧
    exec .subV s = .next { s with out := { y := res, rel := 0b000000#6, err := false } } ∧
    exec .subwV s = .next { s with R := res, out := { y := res, rel := 0b000000#6, err := false } }

/-- R127 and R128: SUB.U and SUBW.U subtract `u(n)`. -/
def Obligations.SubUnsignedForms : Prop :=
  decode 0x64#8 = .ok .subU ∧ decode 0x66#8 = .ok .subwU ∧
  ∀ s : State, ∃ res : B33, res = sub33 s.R (mkB33 0#1 s.ports.n) ∧
    (res.val : Int) = ((s.R.val : Int) - s.ports.n.toNat) % 2 ^ 33 ∧
    exec .subU s = .next { s with out := { y := res, rel := 0b000000#6, err := false } } ∧
    exec .subwU s = .next { s with R := res, out := { y := res, rel := 0b000000#6, err := false } }

/-- R129 and R130, for `SIGNED_NEG_ROLLOVER = 1`, the value this hardware takes (R7): SUB.S and SUBW.S give
R + 2^32 − `s(n)`, whatever the sign, by the routes the rules give. -/
def Obligations.SubSignedForms : Prop :=
  decode 0x68#8 = .ok .subS ∧ decode 0x6A#8 = .ok .subwS ∧
  ∀ s : State, ∃ res : B33,
    (0 ≤ signedN s.ports → res = sub33 s.R (mkB33 1#1 s.ports.n)) ∧
    (signedN s.ports < 0 → res = add33 s.R (mkB33 1#1 (BitVec.ofNat 32 (2 ^ 32 - s.ports.n.toNat)))) ∧
    (res.val : Int) = ((s.R.val : Int) + 2 ^ 32 - signedN s.ports) % 2 ^ 33 ∧
    exec .subS s = .next { s with out := { y := res, rel := 0b000000#6, err := false } } ∧
    exec .subwS s = .next { s with R := res, out := { y := res, rel := 0b000000#6, err := false } }

/-- R104: the laws of the native ADD forms, for either value of `SIGNED_NEG_ROLLOVER`. -/
def Obligations.NativeAddLawsForEitherRollover : Prop :=
  ∀ (rollover : BitVec 1) (r : B33) (p : Ports),
    (arithResult rollover .add .unsigned r p).val = (r.val + unsignedN p) % 2 ^ 33 ∧
    (0 ≤ signedN p →
      ((arithResult rollover .add .signed r p).val : Int) = ((r.val : Int) + 2 ^ 32 + signedN p) % 2 ^ 33) ∧
    (signedN p < 0 → rollover = 1#1 →
      ((arithResult rollover .add .signed r p).val : Int) =
          ((r.val : Int) - (2 ^ 32 + ((signedN p).natAbs : Int))) % 2 ^ 33 ∧
      ((arithResult rollover .add .signed r p).val : Int) = ((r.val : Int) + 2 ^ 32 + signedN p) % 2 ^ 33) ∧
    (signedN p < 0 → rollover = 0#1 →
      ((arithResult rollover .add .signed r p).val : Int) = ((r.val : Int) + signedN p) % 2 ^ 33)

/-- R124: the laws of the native SUB forms, for either value of `SIGNED_NEG_ROLLOVER`. -/
def Obligations.NativeSubLawsForEitherRollover : Prop :=
  ∀ (rollover : BitVec 1) (r : B33) (p : Ports),
    ((arithResult rollover .sub .unsigned r p).val : Int) = ((r.val : Int) - unsignedN p) % 2 ^ 33 ∧
    (0 ≤ signedN p →
      ((arithResult rollover .sub .signed r p).val : Int) = ((r.val : Int) - 2 ^ 32 - signedN p) % 2 ^ 33 ∧
      ((arithResult rollover .sub .signed r p).val : Int) = ((r.val : Int) + 2 ^ 32 - signedN p) % 2 ^ 33) ∧
    (signedN p < 0 → rollover = 1#1 →
      ((arithResult rollover .sub .signed r p).val : Int) =
          ((r.val : Int) + 2 ^ 32 + ((signedN p).natAbs : Int)) % 2 ^ 33 ∧
      ((arithResult rollover .sub .signed r p).val : Int) = ((r.val : Int) + 2 ^ 32 - signedN p) % 2 ^ 33) ∧
    (signedN p < 0 → rollover = 0#1 →
      ((arithResult rollover .sub .signed r p).val : Int) = ((r.val : Int) - signedN p) % 2 ^ 33)

/-- spec/43_compare.md R142 and R141: CMP writes the six relations of R against B to `out.rel`, each the relation of
the values, keeps R and shows it on `out.y`; exactly one of `lt`, `eq` and `gt` holds. -/
def Obligations.CmpWritesTheSixRelations : Prop :=
  decode 0x70#8 = .ok .cmp ∧
  ∀ s : State, ∃ rel : BitVec 6,
    exec .cmp s = .next { s with out := { y := s.R, rel := rel, err := false } } ∧
    rel.getLsbD 0 = eq33 s.R (operandB s.ports) ∧ rel.getLsbD 1 = ne33 s.R (operandB s.ports) ∧
    rel.getLsbD 2 = lt33 s.R (operandB s.ports) ∧ rel.getLsbD 3 = le33 s.R (operandB s.ports) ∧
    rel.getLsbD 4 = gt33 s.R (operandB s.ports) ∧ rel.getLsbD 5 = ge33 s.R (operandB s.ports) ∧
    (s.R.val < (operandB s.ports).val → rel = 0b001110#6) ∧
    (s.R.val = (operandB s.ports).val → rel = 0b101001#6) ∧
    ((operandB s.ports).val < s.R.val → rel = 0b110010#6)

/-! ## What every command keeps, and what no command reads -/

/-- R20, R26, R85 and R144, and the frame of every command: one that has no write-back keeps R; `out.y` is the new R
for every command but the six ADD and SUB forms with `W = 0`; `out.rel` is 000000 but for CMP; nothing else of the
state changes. -/
def Obligations.CommandFrame : Prop :=
  ∀ (i : Instr) (s t : State), exec i s = .next t →
    (i ∉ [.clr, .ld32, .ld33, .ldv, .addwV, .addwU, .addwS, .subwV, .subwU, .subwS] → t.R = s.R) ∧
    (i ∉ [.addV, .addU, .addS, .subV, .subU, .subS] → t.out.y = t.R) ∧
    (i ≠ .cmp → t.out.rel = 0b000000#6) ∧ t.out.err = false ∧
    t.ports = s.ports ∧ t.schedule = s.schedule ∧ t.faultMark = s.faultMark ∧ t.resetSeen = s.resetSeen

/-- R85 over whole steps: R changes at an edge only by a reset or by one of the ten commands that write a whole
value. -/
def Obligations.OnlyResetAndWholeValueCommandsChangeR : Prop :=
  ∀ s t : State, step s = .next t → t.R ≠ s.R →
    s.ports.rst = true ∨
    (executes s = true ∧ ∃ i, decode s.ports.cmd = .ok i ∧
      i ∈ [.clr, .ld32, .ld33, .ldv, .addwV, .addwU, .addwS, .subwV, .subwU, .subwS])

/-- R66: a command ignores the ports it does not use; R24 and R26: no command reads `out`. Two states that agree on R
and on the operands the command reads give the same R and `out`. -/
def Obligations.CommandsReadOnlyTheirOperands : Prop :=
  ∀ (i : Instr) (s s' : State), s.R = s'.R → sameOperands i s.ports s'.ports →
    ∃ t t', exec i s = .next t ∧ exec i s' = .next t' ∧ t.R = t'.R ∧ t.out = t'.out

/-- spec/20_memory.md R43: the loads, CLR, CMP, NOP and the forms of ADD and SUB without write-back can be repeated
without a different state, and the compound forms cannot: each of those has a state that it changes again. -/
def Obligations.RepeatableCommands : Prop :=
  ∀ i : Instr,
    (i ∉ [.addwV, .addwU, .addwS, .subwV, .subwU, .subwS] →
      ∀ s t : State, exec i s = .next t → exec i t = .next t) ∧
    (i ∈ [.addwV, .addwU, .addwS, .subwV, .subwU, .subwS] →
      ∃ s t u : State, exec i s = .next t ∧ exec i t = .next u ∧ u.R ≠ t.R)

/-- spec/10_state.md R32: an edge of one instance leaves the others as they are, and edges of two instances give the
same block states in either order. -/
def Obligations.InstancesAreIndependent : Prop :=
  (∀ (k j : Nat) (xs ys : List State), stepInstance k xs = .next ys → j ≠ k → ys[j]? = xs[j]?) ∧
  (∀ (k j : Nat) (xs ys zs : List State), j ≠ k → stepInstance k xs = .next ys → stepInstance j ys = .next zs →
    ∃ ys', stepInstance j xs = .next ys' ∧ stepInstance k ys' = .next zs)

/-! ## Runs -/

/-- R31 and R161: the invariant of a run holds right after reset. -/
def Obligations.RunInvariantHoldsAtReset : Prop :=
  RunInvariant State.reset ∧ State.reset.faultMark = none

/-- R26, R141, R161 and R183: every step keeps the invariant of a run: the block stays reset, `out.rel` stays one of
its four values, and an error on `out.err` stands in the fault mark. -/
def Obligations.EveryStepKeepsTheRunInvariant : Prop :=
  ∀ s t : State, RunInvariant s → step s = .next t → RunInvariant t

/-- R161, R24 and R45: from a block that has been reset and carries no fault mark, a host that presents no illegal
command gets a next state at every edge, and the run stays free of the mark. -/
def Obligations.LegalHostRunsWithoutFault : Prop :=
  ∀ (k : Nat) (s : State), s.resetSeen = true → s.faultMark = none → hostLegal s = true →
    ∃ t, core.run k s = .next t ∧ State.faultMark t = none ∧ hostLegal t = true

/-- R161, the other way, on the model's reading that a reset edge keeps the fault mark (DEDUCED, log entry 2), without
which an illegal command before a reset edge would be forgotten: a run of k edges that ends without a fault mark
presented no illegal command at any of them. -/
def Obligations.RunsWithoutFaultPresentedNoIllegalCommand : Prop :=
  ∀ (k : Nat) (s t : State), core.run k s = .next t → t.faultMark = none →
    ∀ (j : Nat) (p : Ports), j < k → (s.ports :: s.schedule)[j]? = some p → edgeLegal p = true

/-! ## The text form -/

/-- spec/44_text_form.md R150 and R153: eleven characters, `0x`, a rollover digit 0 or 1 and the eight
lowercase hex digits of `LOW32`, the most significant first; different values have different strings. -/
def Obligations.TextFormHasElevenCharactersAndIsInjective : Prop :=
  (∀ x : B33, (fmtChars x).length = 11 ∧ (fmtChars x).take 2 = ['0', 'x'] ∧
    (fmtChars x)[2]? = some (if rolloverBit x then '1' else '0') ∧
    (∀ j, j < 8 → (fmtChars x)[3 + j]? = hexDigits[((lowWord32 x).toNat >>> (28 - 4 * j)) % 16]?) ∧
    String.ofList hexDigits = "0123456789abcdef" ∧ fmtString x = String.ofList (fmtChars x)) ∧
  (∀ x y : B33, fmtString x = fmtString y → x = y)

/-- R154: the five examples. -/
def Obligations.TextFormExamples : Prop :=
  fmtString zero33 = "0x000000000" ∧ fmtString one33 = "0x000000001" ∧ fmtString max33 = "0x1ffffffff" ∧
  fmtString (mkB33 0#1 0x12345678#32) = "0x012345678" ∧ fmtString (mkB33 1#1 0x0000FFFF#32) = "0x10000ffff"
end

