-- ==== Sys2Proof/Laws/Arith.lean ====
section
/-! SUPPORT. The numeric value of what each shared operation gives: one lemma for each. -/

namespace Sys2Proof

theorem B33.val_lt (x : B33) : x.val < 2 ^ 33 := by
  have h := x.msb17.isLt
  have l := x.lsb16.isLt
  unfold B33.val
  omega

/-- The value determines the fields. -/
theorem B33.eq_of_val_eq {a b : B33} (h : a.val = b.val) : a = b := by
  obtain ⟨ah, al⟩ := a
  obtain ⟨bh, bl⟩ := b
  have h1 := al.isLt
  have h2 := bl.isLt
  simp only [B33.val] at h
  have hh : ah = bh := BitVec.eq_of_toNat_eq (by omega)
  have hl : al = bl := BitVec.eq_of_toNat_eq (by omega)
  rw [hh, hl]

theorem B33.val_inj {a b : B33} : a.val = b.val ↔ a = b :=
  ⟨B33.eq_of_val_eq, fun h => h ▸ rfl⟩

namespace Machine

theorem mkB33_val (h : BitVec 1) (v : BitVec 32) : (mkB33 h v).val = h.toNat * 2 ^ 32 + v.toNat := by
  have hv := v.isLt
  simp only [mkB33, B33.val, BitVec.toNat_append, BitVec.extractLsb'_toNat, Nat.shiftRight_eq_div_pow]
  rw [← Nat.shiftLeft_add_eq_or_of_lt (by omega), Nat.shiftLeft_eq]
  omega

theorem zero33_val : zero33.val = 0 := by decide

theorem one33_val : one33.val = 1 := by decide

theorem max33_val : max33.val = 2 ^ 33 - 1 := by decide

theorem fromNative_val (w : BitVec 33) : (fromNative w).val = w.toNat := by
  have hw := w.isLt
  rw [fromNative, mkB33_val]
  simp only [BitVec.extractLsb'_toNat, Nat.shiftRight_eq_div_pow]
  omega

theorem lowWord32_toNat (x : B33) : (lowWord32 x).toNat = x.val % 2 ^ 32 := by
  have h := x.msb17.isLt
  have l := x.lsb16.isLt
  simp only [lowWord32, B33.val, BitVec.toNat_append, BitVec.extractLsb'_toNat, Nat.shiftRight_eq_div_pow]
  rw [← Nat.shiftLeft_add_eq_or_of_lt (by omega), Nat.shiftLeft_eq]
  omega

theorem highWord32_toNat (x : B33) : (highWord32 x).toNat = x.val / 2 ^ 17 * 2 ^ 16 + x.val % 2 ^ 16 := by
  have h := x.msb17.isLt
  have l := x.lsb16.isLt
  simp only [highWord32, B33.val, BitVec.toNat_append, BitVec.extractLsb'_toNat, Nat.shiftRight_eq_div_pow]
  rw [← Nat.shiftLeft_add_eq_or_of_lt (by omega), Nat.shiftLeft_eq]
  omega

theorem rolloverBit_iff (x : B33) : rolloverBit x = true ↔ 2 ^ 32 ≤ x.val := by
  have h := x.msb17.isLt
  have l := x.lsb16.isLt
  simp only [rolloverBit, BitVec.getLsbD, Nat.testBit_eq_decide_div_mod_eq, decide_eq_true_eq, B33.val]
  omega

theorem lowBit_iff (x : B33) : lowBit x = true ↔ x.val % 2 = 1 := by
  simp only [lowBit, BitVec.getLsbD, Nat.testBit_eq_decide_div_mod_eq, decide_eq_true_eq, B33.val]
  omega

theorem toNative_eq_val (x : B33) : toNative x = x.val := by
  have hx := x.val_lt
  have hr := rolloverBit_iff x
  rw [toNative, lowWord32_toNat]
  split <;> rename_i hc <;> rw [hr] at hc <;> omega

/-- The adder, as a sum modulo 2^33. -/
theorem add33_val (a b : B33) : (add33 a b).val = (a.val + b.val) % 2 ^ 33 := by
  have ha := a.msb17.isLt
  have hb := b.msb17.isLt
  have la := a.lsb16.isLt
  have lb := b.lsb16.isLt
  have m17 : ∀ k : Nat, k &&& 0x1FFFF = k % 2 ^ 17 := fun k => Nat.and_two_pow_sub_one_eq_mod k 17
  have m16 : ∀ k : Nat, k &&& 0xFFFF = k % 2 ^ 16 := fun k => Nat.and_two_pow_sub_one_eq_mod k 16
  simp only [add33, B33.val, BitVec.toNat_ofNat, Nat.shiftRight_eq_div_pow, m17, m16]
  omega

theorem eq33_iff (a b : B33) : eq33 a b = true ↔ a.val = b.val := by
  rw [B33.val_inj]
  obtain ⟨ah, al⟩ := a
  obtain ⟨bh, bl⟩ := b
  simp [eq33]

theorem lt33_iff (a b : B33) : lt33 a b = true ↔ a.val < b.val := by
  have la := a.lsb16.isLt
  have lb := b.lsb16.isLt
  simp only [lt33, B33.val, Bool.or_eq_true, Bool.and_eq_true, beq_iff_eq, BitVec.ult, decide_eq_true_eq,
    ← BitVec.toNat_inj]
  omega

theorem le33_iff (a b : B33) : le33 a b = true ↔ a.val ≤ b.val := by
  rw [le33, Bool.or_eq_true, lt33_iff, eq33_iff]
  omega

theorem gt33_iff (a b : B33) : gt33 a b = true ↔ b.val < a.val := by
  rw [gt33, Bool.not_eq_true', ← Bool.not_eq_true, le33_iff]
  omega

theorem ge33_iff (a b : B33) : ge33 a b = true ↔ b.val ≤ a.val := by
  rw [ge33, Bool.or_eq_true, gt33_iff, eq33_iff]
  omega

theorem ne33_iff (a b : B33) : ne33 a b = true ↔ a.val ≠ b.val := by
  rw [ne33, Bool.not_eq_true', ← Bool.not_eq_true, eq33_iff]

/-- The GE path gives the exact difference. -/
theorem subFields_val {a b : B33} (h : b.val ≤ a.val) : (subFields a b).val = a.val - b.val := by
  have ha := a.msb17.isLt
  have hb := b.msb17.isLt
  have la := a.lsb16.isLt
  have lb := b.lsb16.isLt
  simp only [B33.val] at h
  simp only [subFields]
  split <;> simp only [B33.val, BitVec.toNat_ofInt] <;> omega

/-- The subtractor, as a difference modulo 2^33. -/
theorem sub33_val (a b : B33) : (sub33 a b).val = (a.val + 2 ^ 33 - b.val) % 2 ^ 33 := by
  have ha := a.val_lt
  have hb := b.val_lt
  unfold sub33
  split
  next h =>
    rw [ge33_iff] at h
    rw [subFields_val h]
    omega
  next h =>
    rw [ge33_iff] at h
    have hm : b.val ≤ max33.val := by rw [max33_val]; omega
    rw [add33_val, add33_val, subFields_val hm, max33_val, one33_val]
    omega

theorem operandB_val (p : Ports) : (operandB p).val = p.bMsb17.toNat * 2 ^ 16 + p.bLsb16.toNat := rfl

theorem signedN_eq (p : Ports) :
    signedN p = if p.n.toNat < 2 ^ 31 then (p.n.toNat : Int) else (p.n.toNat : Int) - 2 ^ 32 := by
  have hn := p.n.isLt
  simp only [signedN, BitVec.getLsbD, Nat.testBit_eq_decide_div_mod_eq, decide_eq_true_eq]
  split <;> split <;> omega

theorem signedN_bounds (p : Ports) : -2 ^ 31 ≤ signedN p ∧ signedN p < 2 ^ 31 := by
  have hn := p.n.isLt
  rw [signedN_eq]
  split <;> omega

/-- The absolute value of a negative operand is exact, −2^31 among them. -/
theorem negatedMagnitude_toNat {p : Ports} (h : signedN p < 0) :
    ((negatedMagnitude p).toNat : Int) = -signedN p := by
  have hn := p.n.isLt
  rw [signedN_eq] at h ⊢
  simp only [negatedMagnitude, BitVec.toNat_ofNat]
  split at h <;> split <;> omega

/-- The relation vector is one of three. -/
theorem relVector_cases (a b : B33) :
    (a.val = b.val ∧ relVector a b = 0b101001#6) ∨ (a.val < b.val ∧ relVector a b = 0b001110#6) ∨
      (b.val < a.val ∧ relVector a b = 0b110010#6) := by
  have e := eq33_iff a b
  have l := lt33_iff a b
  rcases Nat.lt_trichotomy a.val b.val with h | h | h
  · right; left
    have h1 : lt33 a b = true := l.2 h
    have h2 : eq33 a b = false := by
      rw [← Bool.not_eq_true, e]; omega
    exact ⟨h, by simp [relVector, ge33, gt33, le33, ne33, h1, h2]⟩
  · left
    have h1 : lt33 a b = false := by
      rw [← Bool.not_eq_true, l]; omega
    have h2 : eq33 a b = true := e.2 h
    exact ⟨h, by simp [relVector, ge33, gt33, le33, ne33, h1, h2]⟩
  · right; right
    have h1 : lt33 a b = false := by
      rw [← Bool.not_eq_true, l]; omega
    have h2 : eq33 a b = false := by
      rw [← Bool.not_eq_true, e]; omega
    exact ⟨h, by simp [relVector, ge33, gt33, le33, ne33, h1, h2]⟩

end Machine

end Sys2Proof
end

