-- ==== Sys2Proof/Laws/Operands.lean ====
section
/-! SUPPORT. The value of an arithmetic result, one lemma for each operand form (spec/30_encoding.md R67). -/

namespace Sys2Proof.Machine

variable {rollover : BitVec 1} {r : B33} {p : Ports}

theorem arithResult_add_value : arithResult rollover .add .value r p = add33 r (operandB p) := rfl

theorem arithResult_sub_value : arithResult rollover .sub .value r p = sub33 r (operandB p) := rfl

theorem arithResult_add_unsigned : arithResult rollover .add .unsigned r p = add33 r (mkB33 0#1 p.n) := rfl

theorem arithResult_sub_unsigned : arithResult rollover .sub .unsigned r p = sub33 r (mkB33 0#1 p.n) := rfl

theorem arithResult_add_nonneg (h : 0 ≤ signedN p) :
    arithResult rollover .add .signed r p = add33 r (mkB33 1#1 p.n) := by
  simp [arithResult, convert, h, applyArith]

theorem arithResult_sub_nonneg (h : 0 ≤ signedN p) :
    arithResult rollover .sub .signed r p = sub33 r (mkB33 1#1 p.n) := by
  simp [arithResult, convert, h, applyArith]

theorem arithResult_add_neg (h : signedN p < 0) :
    arithResult rollover .add .signed r p = sub33 r (mkB33 rollover (negatedMagnitude p)) := by
  simp [arithResult, convert, Int.not_le.2 h, applyArith, ArithOp.swap]

theorem arithResult_sub_neg (h : signedN p < 0) :
    arithResult rollover .sub .signed r p = add33 r (mkB33 rollover (negatedMagnitude p)) := by
  simp [arithResult, convert, Int.not_le.2 h, applyArith, ArithOp.swap]

/-- The port value of a non-negative signed operand. -/
theorem signedN_nonneg_eq (h : 0 ≤ signedN p) : signedN p = p.n.toNat := by
  have hn := p.n.isLt
  rw [signedN_eq] at h ⊢
  split at h <;> split <;> omega

theorem swap_swap (op : ArithOp) : op.swap.swap = op := by
  cases op <;> rfl

end Sys2Proof.Machine
end

