-- ==== Sys2Proof/Laws/PerInstr.lean ====
section
/-! SUPPORT. The statement made once for each instruction: the fields its encoding writes are legal and are the
fields of its word (spec/30_encoding.md R60, R63). -/

namespace Sys2Proof.Laws

/-- The encoded word splits into the table's fields, and they are legal. -/
def encodingLegal.Statement (i : Instr) : Prop :=
  splitFields (encode i) = encodeFields i ∧ (encodeFields i).legal = true

theorem encodingLegal.nop : encodingLegal.Statement .nop := by unfold encodingLegal.Statement; decide

theorem encodingLegal.clr : encodingLegal.Statement .clr := by unfold encodingLegal.Statement; decide

theorem encodingLegal.ld32 : encodingLegal.Statement .ld32 := by unfold encodingLegal.Statement; decide

theorem encodingLegal.ld33 : encodingLegal.Statement .ld33 := by unfold encodingLegal.Statement; decide

theorem encodingLegal.ldv : encodingLegal.Statement .ldv := by unfold encodingLegal.Statement; decide

theorem encodingLegal.addV : encodingLegal.Statement .addV := by unfold encodingLegal.Statement; decide

theorem encodingLegal.addwV : encodingLegal.Statement .addwV := by unfold encodingLegal.Statement; decide

theorem encodingLegal.addU : encodingLegal.Statement .addU := by unfold encodingLegal.Statement; decide

theorem encodingLegal.addwU : encodingLegal.Statement .addwU := by unfold encodingLegal.Statement; decide

theorem encodingLegal.addS : encodingLegal.Statement .addS := by unfold encodingLegal.Statement; decide

theorem encodingLegal.addwS : encodingLegal.Statement .addwS := by unfold encodingLegal.Statement; decide

theorem encodingLegal.subV : encodingLegal.Statement .subV := by unfold encodingLegal.Statement; decide

theorem encodingLegal.subwV : encodingLegal.Statement .subwV := by unfold encodingLegal.Statement; decide

theorem encodingLegal.subU : encodingLegal.Statement .subU := by unfold encodingLegal.Statement; decide

theorem encodingLegal.subwU : encodingLegal.Statement .subwU := by unfold encodingLegal.Statement; decide

theorem encodingLegal.subS : encodingLegal.Statement .subS := by unfold encodingLegal.Statement; decide

theorem encodingLegal.subwS : encodingLegal.Statement .subwS := by unfold encodingLegal.Statement; decide

theorem encodingLegal.cmp : encodingLegal.Statement .cmp := by unfold encodingLegal.Statement; decide

end Sys2Proof.Laws
end

