-- ==== Sys2Proof/Laws/State.lean ====
section
/-! SUPPORT. What each update of the state leaves in each field. -/

namespace Sys2Proof.Machine

@[simp] theorem writeOut_R (y : B33) (rel : BitVec 6) (s : State) : (writeOut y rel s).R = s.R := rfl
@[simp] theorem writeOut_out (y : B33) (rel : BitVec 6) (s : State) : (writeOut y rel s).out = { y := y, rel := rel, err := false } := rfl
@[simp] theorem writeOut_ports (y : B33) (rel : BitVec 6) (s : State) : (writeOut y rel s).ports = s.ports := rfl
@[simp] theorem writeOut_schedule (y : B33) (rel : BitVec 6) (s : State) : (writeOut y rel s).schedule = s.schedule := rfl
@[simp] theorem writeOut_faultMark (y : B33) (rel : BitVec 6) (s : State) : (writeOut y rel s).faultMark = s.faultMark := rfl
@[simp] theorem writeOut_resetSeen (y : B33) (rel : BitVec 6) (s : State) : (writeOut y rel s).resetSeen = s.resetSeen := rfl

@[simp] theorem writeR_R (x : B33) (s : State) : (writeR x s).R = x := rfl
@[simp] theorem writeR_out (x : B33) (s : State) : (writeR x s).out = s.out := rfl
@[simp] theorem writeR_ports (x : B33) (s : State) : (writeR x s).ports = s.ports := rfl
@[simp] theorem writeR_schedule (x : B33) (s : State) : (writeR x s).schedule = s.schedule := rfl
@[simp] theorem writeR_faultMark (x : B33) (s : State) : (writeR x s).faultMark = s.faultMark := rfl
@[simp] theorem writeR_resetSeen (x : B33) (s : State) : (writeR x s).resetSeen = s.resetSeen := rfl

@[simp] theorem loadR_R (x : B33) (s : State) : (loadR x s).R = x := rfl
@[simp] theorem loadR_out (x : B33) (s : State) : (loadR x s).out = { y := x, rel := noRelations, err := false } := rfl
@[simp] theorem loadR_ports (x : B33) (s : State) : (loadR x s).ports = s.ports := rfl
@[simp] theorem loadR_schedule (x : B33) (s : State) : (loadR x s).schedule = s.schedule := rfl
@[simp] theorem loadR_faultMark (x : B33) (s : State) : (loadR x s).faultMark = s.faultMark := rfl
@[simp] theorem loadR_resetSeen (x : B33) (s : State) : (loadR x s).resetSeen = s.resetSeen := rfl

@[simp] theorem takeIllegalCommand_R (s : State) : (takeIllegalCommand s).R = s.R := rfl
@[simp] theorem takeIllegalCommand_out (s : State) : (takeIllegalCommand s).out = { s.out with err := true } := rfl
@[simp] theorem takeIllegalCommand_ports (s : State) : (takeIllegalCommand s).ports = s.ports := rfl
@[simp] theorem takeIllegalCommand_schedule (s : State) : (takeIllegalCommand s).schedule = s.schedule := rfl
@[simp] theorem takeIllegalCommand_faultMark (s : State) : (takeIllegalCommand s).faultMark = some .illegalCommand := rfl
@[simp] theorem takeIllegalCommand_resetSeen (s : State) : (takeIllegalCommand s).resetSeen = s.resetSeen := rfl

@[simp] theorem resetEdge_R (s : State) : (resetEdge s).R = zero33 := rfl
@[simp] theorem resetEdge_out (s : State) : (resetEdge s).out = { y := zero33, rel := noRelations, err := false } := rfl
@[simp] theorem resetEdge_ports (s : State) : (resetEdge s).ports = s.ports := rfl
@[simp] theorem resetEdge_schedule (s : State) : (resetEdge s).schedule = s.schedule := rfl
@[simp] theorem resetEdge_faultMark (s : State) : (resetEdge s).faultMark = s.faultMark := rfl
@[simp] theorem resetEdge_resetSeen (s : State) : (resetEdge s).resetSeen = true := rfl

@[simp] theorem placeExecuted_R (w : CommandWord) (s : State) : (placeExecuted w s).R = s.R := rfl
@[simp] theorem placeExecuted_out (w : CommandWord) (s : State) : (placeExecuted w s).out = s.out := rfl
@[simp] theorem placeExecuted_ports (w : CommandWord) (s : State) : (placeExecuted w s).ports = { s.ports with rst := false, cmdValid := true, cmd := w } := rfl
@[simp] theorem placeExecuted_schedule (w : CommandWord) (s : State) : (placeExecuted w s).schedule = s.schedule := rfl
@[simp] theorem placeExecuted_faultMark (w : CommandWord) (s : State) : (placeExecuted w s).faultMark = s.faultMark := rfl
@[simp] theorem placeExecuted_resetSeen (w : CommandWord) (s : State) : (placeExecuted w s).resetSeen = true := rfl

@[simp] theorem presentNext_R (s : State) : (presentNext s).R = s.R := by
  unfold presentNext; split <;> rfl
@[simp] theorem presentNext_out (s : State) : (presentNext s).out = s.out := by
  unfold presentNext; split <;> rfl
@[simp] theorem presentNext_faultMark (s : State) : (presentNext s).faultMark = s.faultMark := by
  unfold presentNext; split <;> rfl
@[simp] theorem presentNext_resetSeen (s : State) : (presentNext s).resetSeen = s.resetSeen := by
  unfold presentNext; split <;> rfl

theorem presentNext_of_nil {s : State} (h : s.schedule = []) : presentNext s = { s with ports := Ports.idle } := by
  simp [presentNext, h]

theorem presentNext_of_cons {s : State} {p : Ports} {ps : List Ports} (h : s.schedule = p :: ps) :
    presentNext s = { s with ports := p, schedule := ps } := by
  simp [presentNext, h]

end Sys2Proof.Machine
end

