-- ==== Sys2Proof/Laws/Step.lean ====
section
/-! SUPPORT. What a command and an edge can do, each said once. -/

namespace Sys2Proof.Machine

/-- Every command is one of four updates: it rewrites `out` around the old R (NOP, CMP), loads R, computes on
`out.y` alone, or computes into R. -/
theorem exec_cases (i : Instr) (s : State) :
    (∃ rel, relShape rel ∧ (i ≠ .cmp → rel = noRelations) ∧ (i = .nop ∨ i = .cmp) ∧
      exec i s = .next (writeOut s.R rel s)) ∨
    (∃ x, (i = .clr ∨ i = .ld32 ∨ i = .ld33 ∨ i = .ldv) ∧ exec i s = .next (loadR x s)) ∨
    (∃ op src, (i = .addV ∨ i = .addU ∨ i = .addS ∨ i = .subV ∨ i = .subU ∨ i = .subS) ∧
      exec i s = .next (arithForm op src s)) ∨
    (∃ op src, (i = .addwV ∨ i = .addwU ∨ i = .addwS ∨ i = .subwV ∨ i = .subwU ∨ i = .subwS) ∧
      exec i s = .next (compoundForm op src s)) := by
  cases i with
  | nop => exact .inl ⟨noRelations, .inl rfl, fun _ => rfl, .inl rfl, rfl⟩
  | cmp =>
    refine .inl ⟨relVector s.R (operandB s.ports), ?_, fun h => absurd rfl h, .inr rfl, rfl⟩
    rcases relVector_cases s.R (operandB s.ports) with ⟨-, h⟩ | ⟨-, h⟩ | ⟨-, h⟩ <;> simp [relShape, h]
  | clr => exact .inr (.inl ⟨zero33, by simp, rfl⟩)
  | ld32 => exact .inr (.inl ⟨mkB33 0#1 s.ports.n, by simp, rfl⟩)
  | ld33 => exact .inr (.inl ⟨mkB33 s.ports.nHi s.ports.n, by simp, rfl⟩)
  | ldv => exact .inr (.inl ⟨operandB s.ports, by simp, rfl⟩)
  | addV => exact .inr (.inr (.inl ⟨.add, .value, by simp, rfl⟩))
  | addU => exact .inr (.inr (.inl ⟨.add, .unsigned, by simp, rfl⟩))
  | addS => exact .inr (.inr (.inl ⟨.add, .signed, by simp, rfl⟩))
  | subV => exact .inr (.inr (.inl ⟨.sub, .value, by simp, rfl⟩))
  | subU => exact .inr (.inr (.inl ⟨.sub, .unsigned, by simp, rfl⟩))
  | subS => exact .inr (.inr (.inl ⟨.sub, .signed, by simp, rfl⟩))
  | addwV => exact .inr (.inr (.inr ⟨.add, .value, by simp, rfl⟩))
  | addwU => exact .inr (.inr (.inr ⟨.add, .unsigned, by simp, rfl⟩))
  | addwS => exact .inr (.inr (.inr ⟨.add, .signed, by simp, rfl⟩))
  | subwV => exact .inr (.inr (.inr ⟨.sub, .value, by simp, rfl⟩))
  | subwU => exact .inr (.inr (.inr ⟨.sub, .unsigned, by simp, rfl⟩))
  | subwS => exact .inr (.inr (.inr ⟨.sub, .signed, by simp, rfl⟩))

/-- What every command leaves as it is, and the error bit it clears. -/
theorem exec_frame {i : Instr} {s t : State} (h : exec i s = .next t) :
    t.ports = s.ports ∧ t.schedule = s.schedule ∧ t.faultMark = s.faultMark ∧ t.resetSeen = s.resetSeen ∧
      t.out.err = false ∧ relShape t.out.rel := by
  rcases exec_cases i s with ⟨rel, hr, -, -, he⟩ | ⟨x, -, he⟩ | ⟨op, src, -, he⟩ | ⟨op, src, -, he⟩ <;>
    rw [he] at h <;> cases h <;> simp_all [arithForm, compoundForm, relShape, noRelations]

/-- Every command completes. -/
theorem exec_completes (i : Instr) (s : State) : ∃ t, exec i s = .next t := by
  rcases exec_cases i s with ⟨_, -, -, -, he⟩ | ⟨_, -, he⟩ | ⟨_, _, -, he⟩ | ⟨_, _, -, he⟩ <;> exact ⟨_, he⟩

/-- The decoder accepts exactly the words that meet R63. -/
theorem decode_ok_iff_legal (w : CommandWord) :
    (∃ i, decode w = .ok i) ↔ (splitFields w).legal = true := by
  have h : ∀ w : CommandWord, (decode w).toOption.isSome = (splitFields w).legal := by decide
  rw [← h w]
  cases decode w <;> simp [Except.toOption]

theorem step_reset {s : State} (h : s.ports.rst = true) : step s = .next (presentNext (resetEdge s)) := by
  simp [step, clockEdge, edgeEffect, h]

theorem step_idle {s : State} (h : s.ports.rst = false) (hv : s.ports.cmdValid = false) :
    step s = .next (presentNext s) := by
  simp [step, clockEdge, edgeEffect, h, hv]

theorem step_before_reset {s : State} (h : s.ports.rst = false) (hv : s.ports.cmdValid = true)
    (hr : s.resetSeen = false) : step s = .refused .commandBeforeReset := by
  simp [step, clockEdge, edgeEffect, h, hv, hr]

theorem executes_iff (s : State) :
    executes s = true ↔ s.ports.rst = false ∧ s.ports.cmdValid = true ∧ s.resetSeen = true := by
  simp [executes, and_assoc]

theorem step_command {s t : State} {i : Instr} (he : executes s = true) (hd : decode s.ports.cmd = .ok i)
    (ht : exec i s = .next t) : step s = .next (presentNext t) := by
  obtain ⟨h, hv, hr⟩ := (executes_iff s).1 he
  simp [step, clockEdge, edgeEffect, executeWord, h, hv, hr, hd, ht]

theorem step_illegal {s : State} {e : DecodeReject} (he : executes s = true) (hd : decode s.ports.cmd = .error e) :
    step s = .next (presentNext (takeIllegalCommand s)) := by
  obtain ⟨h, hv, hr⟩ := (executes_iff s).1 he
  simp [step, clockEdge, edgeEffect, executeWord, h, hv, hr, hd]

/-- The five things an edge can be. -/
theorem edge_kinds (s : State) :
    s.ports.rst = true ∨ (s.ports.rst = false ∧ s.ports.cmdValid = false) ∨
      (s.ports.rst = false ∧ s.ports.cmdValid = true ∧ s.resetSeen = false) ∨
      (executes s = true ∧ ∃ i t, decode s.ports.cmd = .ok i ∧ exec i s = .next t) ∨
      (executes s = true ∧ ∃ e, decode s.ports.cmd = .error e) := by
  rcases hr : s.ports.rst with _ | _
  · rcases hv : s.ports.cmdValid with _ | _
    · simp
    · rcases hs : s.resetSeen with _ | _
      · simp
      · have he : executes s = true := by simp [executes, hr, hv, hs]
        rcases hd : decode s.ports.cmd with e | i
        · exact .inr (.inr (.inr (.inr ⟨he, e, rfl⟩)))
        · obtain ⟨t, ht⟩ := exec_completes i s
          exact .inr (.inr (.inr (.inl ⟨he, i, t, rfl, ht⟩)))
  · simp

/-- What a step that gives a next state did, before the host presented its next port values. -/
theorem step_cases {s t : State} (h : step s = .next t) :
    ∃ u, t = presentNext u ∧
      ((s.ports.rst = true ∧ u = resetEdge s) ∨
       (s.ports.rst = false ∧ s.ports.cmdValid = false ∧ u = s) ∨
       (executes s = true ∧ ∃ i, decode s.ports.cmd = .ok i ∧ exec i s = .next u) ∨
       (executes s = true ∧ (∃ e, decode s.ports.cmd = .error e) ∧ u = takeIllegalCommand s)) := by
  rcases edge_kinds s with hr | ⟨hr, hv⟩ | ⟨hr, hv, hs⟩ | ⟨he, i, u, hd, hu⟩ | ⟨he, e, hd⟩
  · rw [step_reset hr] at h
    cases h
    exact ⟨_, rfl, .inl ⟨hr, rfl⟩⟩
  · rw [step_idle hr hv] at h
    cases h
    exact ⟨_, rfl, .inr (.inl ⟨hr, hv, rfl⟩)⟩
  · rw [step_before_reset hr hv hs] at h
    cases h
  · rw [step_command he hd hu] at h
    cases h
    exact ⟨u, rfl, .inr (.inr (.inl ⟨he, i, hd, hu⟩))⟩
  · rw [step_illegal he hd] at h
    cases h
    exact ⟨_, rfl, .inr (.inr (.inr ⟨he, ⟨e, hd⟩, rfl⟩))⟩

end Sys2Proof.Machine
end

