-- ==== Sys2Proof/Laws/Run.lean ====
section
/-! SUPPORT. Runs of several edges, one edge at a time. -/

namespace Sys2Proof.Machine

/-- The run of any machine past a step that gives a next state. -/
theorem coreRun_succ_of_step (M : Host.Core) {k : Nat} {s t : M.State} (h : M.step s = .next t) :
    M.run (k + 1) s = M.run k t := by
  simp only [Host.Core.run, h]

/-- A run of any machine of k + 1 steps that ends in a next state is a step and a run of k steps. -/
theorem coreRun_succ_cases (M : Host.Core) {k : Nat} {s u : M.State} (h : M.run (k + 1) s = .next u) :
    ∃ t, M.step s = .next t ∧ M.run k t = .next u := by
  simp only [Host.Core.run] at h
  split at h
  · exact ⟨_, ‹_›, h⟩
  · cases h
  · cases h

theorem run_succ_of_step {k : Nat} {s t : State} (h : step s = .next t) : core.run (k + 1) s = core.run k t :=
  coreRun_succ_of_step core h

/-- A run of k + 1 edges that ends in a next state is an edge and a run of k edges. -/
theorem run_succ_cases {k : Nat} {s u : State} (h : core.run (k + 1) s = .next u) :
    ∃ t, step s = .next t ∧ core.run k t = .next u :=
  coreRun_succ_cases core h

end Sys2Proof.Machine
end

