-- ==== Sys2Proof/Tests/Slice0.lean ====
section
/-! SUPPORT. The model's own tests: ill-formed terms, words written out from spec/30_encoding.md R60 and R70, one step
of each command from the vectors of spec/95_test_vectors.md, and a state that meets the hypotheses of each statement. -/

namespace Sys2Proof.Tests

open Sys2Proof.Machine

/-- A 33-bit number as a value. -/
def value (v : Nat) : B33 := fromNative (BitVec.ofNat 33 v)

/-- A block after reset with R, operand B, `n` and `n_hi` set, the host idle. -/
def block (r b n hi : Nat) : State :=
  { State.reset with
    R := value r
    ports := { Ports.idle with bMsb17 := (value b).msb17, bLsb16 := (value b).lsb16, n := BitVec.ofNat 32 n, nHi := BitVec.ofNat 1 hi } }

/-- The same block with a command word presented. -/
def commanded (w : CommandWord) (r b n hi : Nat) : State :=
  placeCommand w (block r b n hi)

/-- `val` of R and of `out.y`, `out.rel` and `out.err` after a step, where there is a next state. -/
def shown : Host.Outcome State Fault Refusal → Option (Nat × Nat × BitVec 6 × Bool)
  | .next t => some (t.R.val, t.out.y.val, t.out.rel, t.out.err)
  | .fault _ => none
  | .refused _ => none

/-! ## Ill-formed terms -/

theorem test_wf_reserved_bit : ({ opc := 0x5, src := 0b00, w := 0, z := 1 } : CommandFields).legal = false := by decide

theorem test_wf_reserved_opcode : ({ opc := 0x8, src := 0b00, w := 0, z := 0 } : CommandFields).legal = false := by decide

theorem test_wf_src_on_plain : ({ opc := 0x7, src := 0b01, w := 0, z := 0 } : CommandFields).legal = false := by decide

theorem test_wf_w_on_plain : ({ opc := 0x0, src := 0b00, w := 1, z := 0 } : CommandFields).legal = false := by decide

theorem test_wf_reserved_source : ({ opc := 0x6, src := 0b11, w := 1, z := 0 } : CommandFields).legal = false := by decide

theorem test_wf_b_too_large : ({ instr := .ldv, b := some (2 ^ 33), n := none, hi := none } : CommandLine).wellFormed = false := by decide

theorem test_wf_b_missing : ({ instr := .cmp, b := none, n := none, hi := none } : CommandLine).wellFormed = false := by decide

theorem test_wf_n_unsigned_negative : ({ instr := .addU, b := none, n := some (-1), hi := none } : CommandLine).wellFormed = false := by decide

theorem test_wf_n_signed_too_large : ({ instr := .subS, b := none, n := some (2 ^ 31), hi := none } : CommandLine).wellFormed = false := by decide

theorem test_wf_n_not_read : ({ instr := .clr, b := none, n := some 0, hi := none } : CommandLine).wellFormed = false := by decide

theorem test_wf_hi_two : ({ instr := .ld33, b := none, n := some 0, hi := some 2 } : CommandLine).wellFormed = false := by decide

theorem test_wf_ldi_too_large : (AsmLine.ldi (2 ^ 33)).wellFormed = false := by decide

theorem test_wf_mov_too_large : (AsmLine.mov (2 ^ 33)).wellFormed = false := by decide

/-! ## Decoding: OPC, SRC, W and Z written out (R60, R61, R62, R70), and illegal words (L2.6) -/

theorem test_decode_nop : decode 0b00000000#8 = .ok .nop := by decide

theorem test_decode_clr : decode 0b00010000#8 = .ok .clr := by decide

theorem test_decode_ld32 : decode 0b00100000#8 = .ok .ld32 := by decide

theorem test_decode_ld33 : decode 0b00110000#8 = .ok .ld33 := by decide

theorem test_decode_ldv : decode 0b01000000#8 = .ok .ldv := by decide

theorem test_decode_addV : decode 0b01010000#8 = .ok .addV := by decide

theorem test_decode_addwV : decode 0b01010010#8 = .ok .addwV := by decide

theorem test_decode_addU : decode 0b01010100#8 = .ok .addU := by decide

theorem test_decode_addwU : decode 0b01010110#8 = .ok .addwU := by decide

theorem test_decode_addS : decode 0b01011000#8 = .ok .addS := by decide

theorem test_decode_addwS : decode 0b01011010#8 = .ok .addwS := by decide

theorem test_decode_subV : decode 0b01100000#8 = .ok .subV := by decide

theorem test_decode_subwV : decode 0b01100010#8 = .ok .subwV := by decide

theorem test_decode_subU : decode 0b01100100#8 = .ok .subU := by decide

theorem test_decode_subwU : decode 0b01100110#8 = .ok .subwU := by decide

theorem test_decode_subS : decode 0b01101000#8 = .ok .subS := by decide

theorem test_decode_subwS : decode 0b01101010#8 = .ok .subwS := by decide

theorem test_decode_cmp : decode 0b01110000#8 = .ok .cmp := by decide

theorem test_decode_z_rejected : decode 0x53#8 = .error .reservedBitSet := by decide

theorem test_decode_opcode_rejected : decode 0x80#8 = .error .reservedOpcode := by decide

theorem test_decode_plain_fields_rejected : decode 0x3E#8 = .error .fieldsOnPlainCommand := by decide

theorem test_decode_source_rejected : decode 0x5C#8 = .error .reservedSource := by decide

theorem test_decode_table_word : decodeTableWord 8 0x6A = some .subwS := by decide

/-! ## One step of each command (tables L2.1 to L2.4) -/

/-- L2.1 NOP. -/
theorem test_nop : shown (exec .nop (block 0x100000005 0 0 0)) = some (0x100000005, 0x100000005, 0b000000#6, false) := by decide

/-- L2.1 CLR. -/
theorem test_clr : shown (exec .clr (block 0x1FFFFFFFF 0 0 0)) = some (0, 0, 0b000000#6, false) := by decide

/-- L2.1 LD32. -/
theorem test_ld32 : shown (exec .ld32 (block 0 0 0x12345678 0)) = some (0x012345678, 0x012345678, 0b000000#6, false) := by decide

/-- L2.1 LD32 n=0xFFFFFFFF, with n_hi driven and ignored (R66). -/
theorem test_ld32_clears_rollover : shown (exec .ld32 (block 0x1FFFFFFFF 0 0xFFFFFFFF 1)) = some (0x0FFFFFFFF, 0x0FFFFFFFF, 0b000000#6, false) := by decide

/-- L2.1 LD33 hi=1. -/
theorem test_ld33 : shown (exec .ld33 (block 0 0 0x0000FFFF 1)) = some (0x10000FFFF, 0x10000FFFF, 0b000000#6, false) := by decide

/-- L2.1 LD33 hi=0 n=0x80000000. -/
theorem test_ld33_rollover_zero : shown (exec .ld33 (block 0x1FFFFFFFF 0 0x80000000 0)) = some (0x080000000, 0x080000000, 0b000000#6, false) := by decide

/-- L2.1 LDV. -/
theorem test_ldv : shown (exec .ldv (block 0 0x123456789 0 0)) = some (0x123456789, 0x123456789, 0b000000#6, false) := by decide

/-- L1 S2, L2.2. -/
theorem test_addV_wraps : shown (exec .addV (block 0x1FFFFFFFF 1 0 0)) = some (0x1FFFFFFFF, 0, 0b000000#6, false) := by decide

/-- L2.2 low carry. -/
theorem test_addV_low_carry : shown (exec .addV (block 0x00000FFFF 1 0 0)) = some (0x00000FFFF, 0x000010000, 0b000000#6, false) := by decide

/-- L1 S6, L2.2. -/
theorem test_addwV : shown (exec .addwV (block 0x00012D687 0x00010F447 0 0)) = some (0x00023CACE, 0x00023CACE, 0b000000#6, false) := by decide

/-- L2.2 low carry and msb wrap. -/
theorem test_addwV_wraps : shown (exec .addwV (block 0x1FFFF8000 0x000008000 0 0)) = some (0, 0, 0b000000#6, false) := by decide

/-- L2.2. -/
theorem test_addU_into_rollover : shown (exec .addU (block 0x0FFFFFFFF 0 1 0)) = some (0x0FFFFFFFF, 0x100000000, 0b000000#6, false) := by decide

/-- L2.2. -/
theorem test_addwU : shown (exec .addwU (block 0x1FFFFFFFF 0 0xFFFFFFFF 0)) = some (0x0FFFFFFFE, 0x0FFFFFFFE, 0b000000#6, false) := by decide

/-- L2.2 ADD.S 0 + s=5. -/
theorem test_addS_positive : shown (exec .addS (block 0 0 5 0)) = some (0, 0x100000005, 0b000000#6, false) := by decide

/-- L2.2 ADD.S 10 + s=−2^31. -/
theorem test_addS_most_negative : shown (exec .addS (block 0xA 0 0x80000000 0)) = some (0xA, 0x08000000A, 0b000000#6, false) := by decide

/-- L2.2 ADDW.S 7 + s=−5. -/
theorem test_addwS_negative : shown (exec .addwS (block 7 0 0xFFFFFFFB 0)) = some (0x100000002, 0x100000002, 0b000000#6, false) := by decide

/-- L2.2 ADDW.S 2^32 + s=−1. -/
theorem test_addwS_minus_one : shown (exec .addwS (block 0x100000000 0 0xFFFFFFFF 0)) = some (0x1FFFFFFFF, 0x1FFFFFFFF, 0b000000#6, false) := by decide

/-- L1 S3, L2.3. -/
theorem test_subV_lt_path : shown (exec .subV (block 1 0x1FFFFFFFF 0 0)) = some (1, 2, 0b000000#6, false) := by decide

/-- L2.3 borrow. -/
theorem test_subV_borrow : shown (exec .subV (block 0x000010000 1 0 0)) = some (0x000010000, 0x00000FFFF, 0b000000#6, false) := by decide

/-- L2.3. -/
theorem test_subwV_rollover_borrow : shown (exec .subwV (block 0x100000000 1 0 0)) = some (0x0FFFFFFFF, 0x0FFFFFFFF, 0b000000#6, false) := by decide

/-- L2.3 SUBW.V 5−7. -/
theorem test_subwV_lt_path : shown (exec .subwV (block 5 7 0 0)) = some (0x1FFFFFFFE, 0x1FFFFFFFE, 0b000000#6, false) := by decide

/-- L2.3 SUB.U 0−0xFFFFFFFF. -/
theorem test_subU : shown (exec .subU (block 0 0 0xFFFFFFFF 0)) = some (0, 0x100000001, 0b000000#6, false) := by decide

/-- L2.3 SUBW.U 0−1. -/
theorem test_subwU : shown (exec .subwU (block 0 0 1 0)) = some (0x1FFFFFFFF, 0x1FFFFFFFF, 0b000000#6, false) := by decide

/-- L2.3 SUB.S 0 − s=5. -/
theorem test_subS_positive : shown (exec .subS (block 0 0 5 0)) = some (0, 0x0FFFFFFFB, 0b000000#6, false) := by decide

/-- L2.3 SUB.S 0 − s=−2^31. -/
theorem test_subS_most_negative : shown (exec .subS (block 0 0 0x80000000 0)) = some (0, 0x180000000, 0b000000#6, false) := by decide

/-- L2.3. -/
theorem test_subwS_most_negative : shown (exec .subwS (block 0x100000000 0 0x80000000 0)) = some (0x080000000, 0x080000000, 0b000000#6, false) := by decide

/-- L2.3 SUBW.S (2^32+7) − s=7. -/
theorem test_subwS_positive : shown (exec .subwS (block 0x100000007 0 7 0)) = some (0, 0, 0b000000#6, false) := by decide

/-- L2.4, the low field larger and the high field smaller. -/
theorem test_cmp_less : shown (exec .cmp (block 0x00001FFFF 0x000020000 0 0)) = some (0x00001FFFF, 0x00001FFFF, 0b001110#6, false) := by decide

/-- L2.4 2^32 vs 0xFFFFFFFF. -/
theorem test_cmp_greater : shown (exec .cmp (block 0x100000000 0x0FFFFFFFF 0 0)) = some (0x100000000, 0x100000000, 0b110010#6, false) := by decide

/-- L2.2's note for `SIGNED_NEG_ROLLOVER = 0`: ADDW.S 7 + s=−5 gives 2. -/
theorem test_add_signed_rollover_zero :
    (arithResult 0#1 .add .signed (value 7) (block 7 0 0xFFFFFFFB 0).ports).val = 2 := by decide

/-! ## Accessors, text form, assembler (table L2.5, R151, R68, R69) -/

/-- L2.5, val(R) = 0x1DEADBEEF. -/
theorem test_accessors : let p := outputPorts (block 0x1DEADBEEF 0 0 0)
    p.rawMsb17 = 0x1DEAD#17 ∧ p.rawLsb16 = 0xBEEF#16 ∧ p.roll = true ∧ p.lowbit = true ∧
      p.high32 = 0xEF56BEEF#32 ∧ p.low32 = 0xDEADBEEF#32 := by decide

/-- L2.5, val(R) = 0x00001ABCD: logical bit 16 is dropped. -/
theorem test_high32_drops_bit_16 : (outputPorts (block 0x00001ABCD 0 0 0)).high32 = 0x0000ABCD#32 := by decide

/-- L2.5. -/
theorem test_text_form : fmtString (value 0x1DEADBEEF) = "0x1deadbeef" := by decide

/-- R151. -/
theorem test_text_bytes : fmtBytes (value 0xA) =
    [0x30#8, 0x78#8, 0x30#8, 0x30#8, 0x30#8, 0x30#8, 0x30#8, 0x30#8, 0x30#8, 0x30#8, 0x61#8] := by decide

/-- R68: `ADDW.S n=-5` drives 0x5A and n=0xFFFFFFFB (P2 step 3). -/
theorem test_assemble_signed : (assemble "ADDW.S n=-5".toList Ports.idle).map (fun p => (p.cmd, p.n)) =
    some (0x5A#8, 0xFFFFFFFB#32) := by decide

/-- R68, with a command byte as a listing shows it. -/
theorem test_assemble_listing : (assemble "[0x30] LD33 hi=1, n=0xffff_ffff".toList Ports.idle).map
    (fun p => (p.cmd, p.nHi, p.n)) = some (0x30#8, 1#1, 0xFFFFFFFF#32) := by decide

/-- R69: `LDI` splits its value (L1 S5's value). -/
theorem test_assemble_ldi : (assemble "LDI 0x1_0000_ffff".toList Ports.idle).map (fun p => (p.cmd, p.nHi, p.n)) =
    some (0x30#8, 1#1, 0x0000FFFF#32) := by decide

/-- R68: an operand out of its range is refused. -/
theorem test_assemble_out_of_range : assemble "ADD.S n=0x80000000".toList Ports.idle = none := by decide

/-! ## Edges -/

/-- L2.7: reset wins over a valid command at the same edge. -/
theorem test_reset_wins : shown (step { commanded 0x56 0x1FFFFFFFF 3 3 1 with
    ports := { (commanded 0x56 0x1FFFFFFFF 3 3 1).ports with rst := true } }) = some (0, 0, 0b000000#6, false) := by decide

/-- L2.6: an illegal word after a CMP step. -/
theorem test_illegal_word : shown (step { commanded 0x80 0x1ABCDEF01 0 0 0 with
    out := { y := value 0x123, rel := 0b001110#6, err := false } }) = some (0x1ABCDEF01, 0x123, 0b001110#6, true) := by
  decide

/-- P3 step 4: `err` clears at the next legal step, and the mark of the run stays. -/
theorem test_err_clears : let s := takeIllegalCommand (commanded 0x54 0x1DEADBEEF 0 0x11 0)
    shown (step s) = some (0x1DEADBEEF, 0x1DEADBF00, 0b000000#6, false) ∧
      (match step s with | .next t => t.faultMark = some .illegalCommand | _ => False) := by
  refine ⟨by decide, ?_⟩
  rfl

/-- The host's first question of a row: the word placed after reset is the command the step runs. -/
theorem test_first_command : shown (step (State.reset.withFetchWord 8 0x66)) =
    shown (exec .subwU (State.reset.withFetchWord 8 0x66)) := by decide

/-! ## States and operands that meet the statements' hypotheses -/

theorem witness_reset_edge :
    { block 5 0 0 0 with ports := { Ports.idle with rst := true, cmdValid := true } }.ports.rst = true := by decide

theorem witness_idle_edge : State.reset.ports.rst = false ∧ State.reset.ports.cmdValid = false ∧
    State.reset.resetSeen = true := by decide

theorem witness_executed_command : executes (commanded 0x5A 7 0 5 0) = true ∧
    decode (commanded 0x5A 7 0 5 0).ports.cmd = .ok .addwS := by decide

theorem witness_executed_words : executes (commanded 0xFF 0 0 0 0) = true ∧
    (splitFields (commanded 0xFF 0 0 0 0).ports.cmd).legal = false ∧
    executes (commanded 0x70 0 0 0 0) = true ∧ (splitFields (commanded 0x70 0 0 0 0).ports.cmd).legal = true := by decide

theorem witness_marked_step : ∃ t, step (takeIllegalCommand (commanded 0x00 1 0 0 0)) = .next t ∧
    (takeIllegalCommand (commanded 0x00 1 0 0 0)).ports.rst = false ∧
    (takeIllegalCommand (commanded 0x00 1 0 0 0)).faultMark = some .illegalCommand := ⟨_, rfl, by decide, by decide⟩

theorem witness_refused : ∃ r, step { commanded 0x00 0 0 0 0 with resetSeen := false } = .refused r := ⟨_, rfl⟩

theorem witness_schedules : (∃ t, step State.reset = .next t ∧ State.reset.schedule = []) ∧
    ∃ t, step { commanded 0x10 1 0 0 0 with schedule := [Ports.idle] } = .next t := ⟨⟨_, rfl, rfl⟩, ⟨_, rfl⟩⟩

theorem witness_back_to_back : let p := (commanded 0x60 0 1 0 0).ports
    executes { commanded 0x56 0 0 1 0 with schedule := [p] } = true ∧ p.rst = false ∧ p.cmdValid = true ∧
      decode (commanded 0x56 0 0 1 0).ports.cmd = .ok .addwU ∧ decode p.cmd = .ok .subV ∧
      (∃ u, exec .addwU { commanded 0x56 0 0 1 0 with schedule := [p] } = .next u) :=
  ⟨by decide, by decide, by decide, by decide, by decide, ⟨_, rfl⟩⟩

/-- Lines at the ends of their operands' ranges. -/
theorem witness_lines :
    ({ instr := .cmp, b := some (2 ^ 33 - 1), n := none, hi := none } : CommandLine).wellFormed = true ∧
    ({ instr := .ld33, b := none, n := some (2 ^ 32 - 1), hi := some 1 } : CommandLine).wellFormed = true ∧
    ({ instr := .addS, b := none, n := some (-2 ^ 31), hi := none } : CommandLine).wellFormed = true ∧
    ({ instr := .subwS, b := none, n := some (2 ^ 31 - 1), hi := none } : CommandLine).wellFormed = true ∧
    ({ instr := .nop, b := none, n := none, hi := none } : CommandLine).wellFormed = true ∧
    (AsmLine.ldi (2 ^ 33 - 1)).wellFormed = true := by decide

theorem witness_round_trip : let s := block 0 0 (2 ^ 32 - 1) 1
    s.ports.nHi = (BitVec.ofNat 33 (2 ^ 33 - 1)).extractLsb' 32 1 ∧
      s.ports.n = (BitVec.ofNat 33 (2 ^ 33 - 1)).extractLsb' 0 32 := by decide

theorem witness_same_register : (block 5 0 0 0).R = (commanded 0xFF 5 9 9 1).R ∧ block 5 0 0 0 ≠ commanded 0xFF 5 9 9 1 := by
  decide

/-- The three cases of the subtractor: no borrow (equal low fields), borrow, and the LT path. -/
theorem witness_subtractor_cases :
    (ge33 (value 0x20005) (value 0x10005) = true ∧ (value 0x10005).lsb16.toNat ≤ (value 0x20005).lsb16.toNat) ∧
    (ge33 (value 0x10000) (value 1) = true ∧ (value 0x10000).lsb16.toNat < (value 1).lsb16.toNat) ∧
    ge33 (value 0) (value 1) = false := by decide

theorem witness_order_chain : lt33 (value 0xFFFF) (value 0x10000) = true ∧ lt33 (value 0x10000) (value 0x1FFFFFFFF) = true := by
  decide

/-- Signed operands at the ends of both signs: 0, 2^31 − 1, −1 and −2^31. -/
theorem witness_signed_operands : 0 ≤ signedN (block 0 0 0 0).ports ∧ 0 ≤ signedN (block 0 0 0x7FFFFFFF 0).ports ∧
    signedN (block 0 0 0xFFFFFFFF 0).ports < 0 ∧ signedN (block 0 0 0x80000000 0).ports < 0 := by decide

theorem witness_ldv_value : (value 0x123456789).msb17 = (block 0 0x123456789 0 0).ports.bMsb17 ∧
    (value 0x123456789).lsb16 = (block 0 0x123456789 0 0).ports.bLsb16 := by decide

theorem witness_cmp_cases : (block 0 1 0 0).R.val < (operandB (block 0 1 0 0).ports).val ∧
    (block 9 9 0 0).R.val = (operandB (block 9 9 0 0).ports).val ∧
    (operandB (block 1 0 0 0).ports).val < (block 1 0 0 0).R.val := by decide

theorem witness_command_frame : (∃ t, exec .cmp (block 1 2 3 1) = .next t) ∧
    (∃ t, exec .addV (block 1 2 3 1) = .next t) ∧ (∃ t, exec .addwS (block 1 2 3 1) = .next t) :=
  ⟨⟨_, rfl⟩, ⟨_, rfl⟩, ⟨_, rfl⟩⟩

theorem witness_register_changes : (∃ t, step (commanded 0x56 0 0 1 0) = .next t ∧ t.R ≠ (commanded 0x56 0 0 1 0).R) ∧
    (∃ t, step { block 1 0 0 0 with ports := { Ports.idle with rst := true } } = .next t ∧ t.R ≠ (block 1 0 0 0).R) :=
  ⟨⟨_, rfl, by decide⟩, ⟨_, rfl, by decide⟩⟩

/-- Two states that differ in `out` and in every port SUB.U does not read. -/
theorem witness_same_operands : (block 5 1 9 0).R = (takeIllegalCommand (commanded 0x64 5 2 9 1)).R ∧
    sameOperands .subU (block 5 1 9 0).ports (takeIllegalCommand (commanded 0x64 5 2 9 1)).ports := by
  unfold sameOperands
  decide

theorem witness_instances : (1 : Nat) ≠ 0 ∧
    (∃ ys, stepInstance 0 [commanded 0x56 0 0 1 0, commanded 0x10 7 0 0 0] = .next ys ∧
      ∃ zs, stepInstance 1 ys = .next zs) := ⟨by decide, _, rfl, _, rfl⟩

theorem witness_invariant_step : RunInvariant (takeIllegalCommand (commanded 0x70 1 2 0 0)) ∧
    ∃ t, step (takeIllegalCommand (commanded 0x70 1 2 0 0)) = .next t := by
  refine ⟨?_, _, rfl⟩
  unfold RunInvariant relShape
  decide

theorem witness_legal_host : let s := { commanded 0x56 0 0 1 0 with schedule := [(commanded 0x70 0 1 0 0).ports] }
    s.resetSeen = true ∧ s.faultMark = none ∧ hostLegal s = true := by decide

theorem witness_unmarked_run : ∃ t, core.run 1 (commanded 0x56 0 0 1 0) = .next t ∧ t.faultMark = none ∧
    ((commanded 0x56 0 0 1 0).ports :: (commanded 0x56 0 0 1 0).schedule)[0]? = some (commanded 0x56 0 0 1 0).ports :=
  ⟨_, rfl, by decide, rfl⟩

theorem witness_equal_texts : fmtString (value 0x1FFFFFFFF) = fmtString max33 := by decide

end Sys2Proof.Tests
end

section
/-! The value and the fields of a `B33` (spec/00_scope.md R9). -/

namespace Sys2Proof.Machine

/-- R9's `fromNative` reaches every number below 2^33. -/
theorem fromNative_ofNat_val {v : Nat} (hv : v < 2 ^ 33) : (fromNative (BitVec.ofNat 33 v)).val = v := by
  rw [fromNative_val, BitVec.toNat_ofNat, Nat.mod_eq_of_lt hv]

/-- Settles O17: `fromNative` gives the pair of fields for each number, and `val` is injective. -/
theorem fieldsAndValueDetermineEachOther : Obligations.FieldsAndValueDetermineEachOther := by
  refine ⟨B33.val_lt, fun v hv => ?_, mkB33_val⟩
  have hx : (fromNative (BitVec.ofNat 33 v)).val = v := fromNative_ofNat_val hv
  exact ⟨_, hx, fun y hy => B33.eq_of_val_eq (hy.trans hx.symm)⟩

end Sys2Proof.Machine
end

section
/-! What each command writes to R, `out.y` and `out.rel` (spec/10_state.md R20, R26), with `exec_frame` the frame of
every command. -/

namespace Sys2Proof.Machine

/-- R85: only the loads, CLR and the compound forms write R. -/
theorem exec_R_of_no_writeBack {i : Instr} {s t : State} (h : exec i s = .next t)
    (hi : i ∉ [.clr, .ld32, .ld33, .ldv, .addwV, .addwU, .addwS, .subwV, .subwU, .subwS]) : t.R = s.R := by
  rcases exec_cases i s with ⟨rel, -, -, -, he⟩ | ⟨x, hload, -⟩ | ⟨op, src, -, he⟩ | ⟨op, src, hcomp, -⟩
  · cases he.symm.trans h
    rfl
  · rcases hload with rfl | rfl | rfl | rfl <;> simp at hi
  · cases he.symm.trans h
    rfl
  · rcases hcomp with rfl | rfl | rfl | rfl | rfl | rfl <;> simp at hi

/-- R26: `out.y` shows the new R, but after the arithmetic forms with `W = 0`. -/
theorem exec_y_eq_R {i : Instr} {s t : State} (h : exec i s = .next t)
    (hi : i ∉ [.addV, .addU, .addS, .subV, .subU, .subS]) : t.out.y = t.R := by
  rcases exec_cases i s with ⟨rel, -, -, -, he⟩ | ⟨x, -, he⟩ | ⟨op, src, harith, -⟩ | ⟨op, src, -, he⟩
  · cases he.symm.trans h
    rfl
  · cases he.symm.trans h
    rfl
  · rcases harith with rfl | rfl | rfl | rfl | rfl | rfl <;> simp at hi
  · cases he.symm.trans h
    rfl

/-- R144: no command but CMP shows a relation. -/
theorem exec_rel_of_ne_cmp {i : Instr} {s t : State} (h : exec i s = .next t) (hi : i ≠ .cmp) :
    t.out.rel = noRelations := by
  rcases exec_cases i s with ⟨rel, -, hrel, -, he⟩ | ⟨x, -, he⟩ | ⟨op, src, -, he⟩ | ⟨op, src, -, he⟩ <;>
    cases he.symm.trans h
  · exact hrel hi
  all_goals rfl

/-- Settles O43: the three writes of a command, and what `exec_frame` says of the rest of the state. -/
theorem commandFrame : Obligations.CommandFrame := by
  intro i s t h
  obtain ⟨hports, hsched, hmark, hseen, herr, -⟩ := exec_frame h
  exact ⟨exec_R_of_no_writeBack h, exec_y_eq_R h, exec_rel_of_ne_cmp h, herr, hports, hsched, hmark, hseen⟩

end Sys2Proof.Machine
end

section
/-! What every edge keeps: the host's schedule moves on by one, the reset mark stays, and the invariant of a run holds
(spec/60_exceptions.md R161, spec/70_reset_and_hazards.md R183). -/

namespace Sys2Proof.Machine

/-- An edge's effect leaves the schedule alone; only the presenting of the next port values takes from it. -/
theorem step_presents_schedule {s t : State} (h : step s = .next t) :
    ∃ u, t = presentNext u ∧ u.schedule = s.schedule := by
  obtain ⟨u, ht, hu⟩ := step_cases h
  refine ⟨u, ht, ?_⟩
  rcases hu with ⟨-, rfl⟩ | ⟨-, -, rfl⟩ | ⟨-, i, -, hexec⟩ | ⟨-, -, rfl⟩
  · exact resetEdge_schedule s
  · rfl
  · obtain ⟨-, hsched, -⟩ := exec_frame hexec
    exact hsched
  · exact takeIllegalCommand_schedule s

/-- Settles O5: the next port values come from the schedule the edge left as it was. -/
theorem edgePresentsTheNextPortValues : Obligations.EdgePresentsTheNextPortValues := by
  intro s t h
  obtain ⟨u, rfl, hu⟩ := step_presents_schedule h
  refine ⟨fun hnil => ?_, fun p ps hcons => ?_⟩
  · have hu' : u.schedule = [] := hu.trans hnil
    rw [presentNext_of_nil hu']
    exact ⟨rfl, hu'⟩
  · rw [presentNext_of_cons (hu.trans hcons)]
    exact ⟨rfl, rfl⟩

/-- No edge loses the reset mark. -/
theorem step_keeps_resetSeen {s t : State} (hs : s.resetSeen = true) (h : step s = .next t) :
    t.resetSeen = true := by
  obtain ⟨u, rfl, hu⟩ := step_cases h
  rw [presentNext_resetSeen]
  rcases hu with ⟨-, rfl⟩ | ⟨-, -, rfl⟩ | ⟨-, i, -, hexec⟩ | ⟨-, -, rfl⟩
  · exact resetEdge_resetSeen s
  · exact hs
  · obtain ⟨-, -, -, hseen, -⟩ := exec_frame hexec
    exact hseen.trans hs
  · exact hs

/-- R24, R162: the one edge without a next state, a command before any reset, needs an unset reset mark. -/
theorem step_completes {s : State} (hs : s.resetSeen = true) : ∃ t, step s = .next t := by
  rcases edge_kinds s with hr | ⟨hr, hv⟩ | ⟨-, -, hunseen⟩ | ⟨he, i, u, hd, hu⟩ | ⟨he, e, hd⟩
  · exact ⟨_, step_reset hr⟩
  · exact ⟨_, step_idle hr hv⟩
  · simp [hs] at hunseen
  · exact ⟨_, step_command he hd hu⟩
  · exact ⟨_, step_illegal he hd⟩

/-- Settles O10. -/
theorem everyEdgeAfterResetHasANextState : Obligations.EveryEdgeAfterResetHasANextState := by
  intro s hs
  obtain ⟨t, ht⟩ := step_completes hs
  exact ⟨t, ht, step_keeps_resetSeen hs ht⟩

/-- The invariant speaks of no port, so the host's next port values do not touch it. -/
theorem runInvariant_presentNext (s : State) : RunInvariant (presentNext s) ↔ RunInvariant s := by
  simp [RunInvariant]

theorem runInvariant_resetEdge (s : State) : RunInvariant (resetEdge s) :=
  ⟨rfl, .inl rfl, nofun⟩

/-- R161: the one update that sets `out.err` records the mark with it and keeps `out.rel`. -/
theorem runInvariant_takeIllegalCommand {s : State} (hs : RunInvariant s) : RunInvariant (takeIllegalCommand s) := by
  obtain ⟨hseen, hrel, -⟩ := hs
  exact ⟨hseen, hrel, fun _ => rfl⟩

/-- A command clears `out.err` and gives `out.rel` one of its four values, whatever stood there before. -/
theorem runInvariant_exec {i : Instr} {s t : State} (hs : s.resetSeen = true) (h : exec i s = .next t) :
    RunInvariant t := by
  obtain ⟨-, -, -, hseen, herr, hrel⟩ := exec_frame h
  exact ⟨hseen.trans hs, hrel, fun hset => by simp [herr] at hset⟩

/-- Settles O49, by the four effects an edge can have. -/
theorem everyStepKeepsTheRunInvariant : Obligations.EveryStepKeepsTheRunInvariant := by
  intro s t hs h
  obtain ⟨u, rfl, hu⟩ := step_cases h
  rw [runInvariant_presentNext]
  rcases hu with ⟨-, rfl⟩ | ⟨-, -, rfl⟩ | ⟨-, i, -, hexec⟩ | ⟨-, -, rfl⟩
  · exact runInvariant_resetEdge s
  · exact hs
  · obtain ⟨hseen, -⟩ := hs
    exact runInvariant_exec hseen hexec
  · exact runInvariant_takeIllegalCommand hs

/-- Settles O48. -/
theorem runInvariantHoldsAtReset : Obligations.RunInvariantHoldsAtReset :=
  ⟨⟨rfl, .inl rfl, nofun⟩, rfl⟩

end Sys2Proof.Machine
end

section
/-! Several instances of the block (spec/10_state.md R32). -/

namespace Sys2Proof.Machine

/-- What an edge of one instance that gives next states did: nothing where the index names no instance, and otherwise a
step of that instance's state. -/
theorem stepInstance_next_iff {k : Nat} {xs ys : List State} :
    stepInstance k xs = .next ys ↔
      (xs[k]? = none ∧ ys = xs) ∨ ∃ s t, xs[k]? = some s ∧ step s = .next t ∧ ys = xs.set k t := by
  unfold stepInstance
  rcases xs[k]? with _ | s
  · simp [eq_comm]
  · rcases hstep : step s with t | f | r <;> simp [hstep, eq_comm]

theorem stepInstance_getElem?_ne {k j : Nat} {xs ys : List State} (h : stepInstance k xs = .next ys) (hjk : j ≠ k) :
    ys[j]? = xs[j]? := by
  rcases stepInstance_next_iff.1 h with ⟨-, rfl⟩ | ⟨s, t, -, -, rfl⟩
  · rfl
  · exact List.getElem?_set_ne hjk.symm

/-- An edge of instance `k` is the same edge when another entry holds another state. -/
theorem stepInstance_set_ne {k j : Nat} {xs ys : List State} (h : stepInstance k xs = .next ys) (hjk : j ≠ k)
    (t : State) : stepInstance k (xs.set j t) = .next (ys.set j t) := by
  rw [stepInstance_next_iff, List.getElem?_set_ne hjk]
  rcases stepInstance_next_iff.1 h with ⟨hnone, rfl⟩ | ⟨s, u, hs, hstep, rfl⟩
  · exact .inl ⟨hnone, rfl⟩
  · exact .inr ⟨s, u, hs, hstep, List.set_comm u t hjk.symm⟩

/-- Settles O47: the second edge finds its own entry as it was before the first. -/
theorem instancesAreIndependent : Obligations.InstancesAreIndependent := by
  refine ⟨fun k j xs ys h hjk => stepInstance_getElem?_ne h hjk, fun k j xs ys zs hjk hk hj => ?_⟩
  have hsame : ys[j]? = xs[j]? := stepInstance_getElem?_ne hk hjk
  rcases stepInstance_next_iff.1 hj with ⟨hnone, rfl⟩ | ⟨s, t, hs, hstep, rfl⟩
  · exact ⟨xs, stepInstance_next_iff.2 (.inl ⟨hsame.symm.trans hnone, rfl⟩), hk⟩
  · exact ⟨xs.set j t, stepInstance_next_iff.2 (.inr ⟨s, t, hsame.symm.trans hs, hstep, rfl⟩),
      stepInstance_set_ne hk hjk t⟩

end Sys2Proof.Machine
end

section
/-! Commands one after another (spec/20_memory.md R43, R45): the next edge reads the R just written, and which commands
can be repeated. -/

namespace Sys2Proof.Machine

/-- R45, R187: after a command the host's next port values stand beside the R the command wrote, and a command among
them executes at once. -/
theorem executes_after_command {i : Instr} {s u : State} {p : Ports} (ps : List Ports) (he : executes s = true)
    (hexec : exec i s = .next u) (hrst : p.rst = false) (hvalid : p.cmdValid = true) :
    executes { u with ports := p, schedule := ps } = true := by
  obtain ⟨-, -, hreset⟩ := (executes_iff s).1 he
  obtain ⟨-, -, -, hseen, -⟩ := exec_frame hexec
  exact (executes_iff _).2 ⟨hrst, hvalid, hseen.trans hreset⟩

/-- Settles O11, by one edge for each command. -/
theorem backToBackCommandsChain : Obligations.BackToBackCommandsChain := by
  intro s u i j p ps he hdi hu hsched hrst hvalid hdj
  obtain ⟨-, hkept, -⟩ := exec_frame hu
  obtain ⟨v, hv⟩ := exec_completes j { u with ports := p, schedule := ps }
  have hfirst : step s = .next { u with ports := p, schedule := ps } := by
    rw [step_command he hdi hu, presentNext_of_cons (hkept.trans hsched)]
  have hsecond : step { u with ports := p, schedule := ps } = .next (presentNext v) :=
    step_command (executes_after_command ps he hu hrst hvalid) hdj hv
  refine ⟨v, hv, ?_⟩
  calc core.run 2 s
      = core.run 1 { u with ports := p, schedule := ps } := run_succ_of_step hfirst
    _ = core.run 0 (presentNext v) := run_succ_of_step hsecond
    _ = .next (presentNext v) := rfl

/-- R24, R26: no command reads the output register, and each overwrites all of it. -/
theorem exec_writeOut (i : Instr) (y : B33) (rel : BitVec 6) (s : State) :
    exec i (writeOut y rel s) = exec i s := by
  cases i <;> rfl

/-- R81 to R84: CLR and the loads overwrite R without reading it. -/
theorem exec_writeR_of_load {i : Instr} (hi : i = .clr ∨ i = .ld32 ∨ i = .ld33 ∨ i = .ldv) (x : B33) (s : State) :
    exec i (writeR x s) = exec i s := by
  rcases hi with rfl | rfl | rfl | rfl <;> rfl

/-- R43: a command that reads nothing of what it writes gives the same state again. -/
theorem exec_again_of_not_compound {i : Instr} {s t : State}
    (hi : i ∉ [.addwV, .addwU, .addwS, .subwV, .subwU, .subwS]) (h : exec i s = .next t) : exec i t = .next t := by
  suffices hsame : exec i t = exec i s from hsame.trans h
  rcases exec_cases i s with ⟨rel, -, -, -, he⟩ | ⟨x, hload, he⟩ | ⟨op, src, -, he⟩ | ⟨op, src, hcomp, -⟩
  · cases he.symm.trans h
    exact exec_writeOut i s.R rel s
  · cases he.symm.trans h
    calc exec i (loadR x s)
        = exec i (writeR x s) := exec_writeOut i x noRelations (writeR x s)
      _ = exec i s := exec_writeR_of_load hload x s
  · cases he.symm.trans h
    exact exec_writeOut i _ noRelations s
  · rcases hcomp with rfl | rfl | rfl | rfl | rfl | rfl <;> simp at hi

/-- A sum or a difference modulo 2^33 leaves its left operand as it was only for the right operand 0. -/
theorem applyArith_eq_left_iff (op : ArithOp) (a q : B33) : applyArith op a q = a ↔ q.val = 0 := by
  have ha := a.val_lt
  have hq := q.val_lt
  rw [← B33.val_inj]
  cases op with
  | add =>
    rw [applyArith, add33_val]
    omega
  | sub =>
    rw [applyArith, sub33_val]
    omega

/-- A compound form keeps R only where R67 converts its right operand to 0. -/
theorem compoundForm_R_eq_iff (op : ArithOp) (src : RightOperand) (s : State) :
    (compoundForm op src s).R = s.R ↔ (convert Config.signedNegRollover op src s.ports).1.val = 0 :=
  applyArith_eq_left_iff _ _ _

@[simp] theorem compoundForm_ports (op : ArithOp) (src : RightOperand) (s : State) :
    (compoundForm op src s).ports = s.ports := rfl

/-- The compound commands are the six compound forms. -/
theorem exec_of_compound {i : Instr} (hi : i ∈ [.addwV, .addwU, .addwS, .subwV, .subwU, .subwS]) :
    ∃ op src, ∀ s, exec i s = .next (compoundForm op src s) := by
  simp only [List.mem_cons, List.not_mem_nil, or_false] at hi
  rcases hi with rfl | rfl | rfl | rfl | rfl | rfl
  · exact ⟨.add, .value, fun _ => rfl⟩
  · exact ⟨.add, .unsigned, fun _ => rfl⟩
  · exact ⟨.add, .signed, fun _ => rfl⟩
  · exact ⟨.sub, .value, fun _ => rfl⟩
  · exact ⟨.sub, .unsigned, fun _ => rfl⟩
  · exact ⟨.sub, .signed, fun _ => rfl⟩

/-- A block after reset with 1 on the operand ports, both B and `n`. -/
def resetWithUnitOperands : State :=
  { State.reset with ports := { Ports.idle with bLsb16 := 1#16, n := 1#32 } }

/-- Every operand form reads a right operand other than 0 from these ports. -/
theorem convert_unitOperands_ne_zero (op : ArithOp) (src : RightOperand) :
    (convert Config.signedNegRollover op src resetWithUnitOperands.ports).1.val ≠ 0 := by
  cases op <;> cases src <;> decide

/-- Settles O46: a compound form is repeated with its operand ports held at 1. -/
theorem repeatableCommands : Obligations.RepeatableCommands := by
  refine fun i => ⟨fun hi s t h => exec_again_of_not_compound hi h, fun hi => ?_⟩
  obtain ⟨op, src, hexec⟩ := exec_of_compound hi
  refine ⟨resetWithUnitOperands, _, _, hexec _, hexec _, fun hR => ?_⟩
  rw [compoundForm_R_eq_iff, compoundForm_ports] at hR
  exact convert_unitOperands_ne_zero op src hR

end Sys2Proof.Machine
end

section
/-! The command word and the opcode table (spec/30_encoding.md R60 to R63, R70): the layout of the fields, and the
table read in both directions. -/

namespace Sys2Proof

/-- R60: the four fields of a word lie side by side, so each is read back from the joined word. -/
theorem splitFields_joinFields (f : CommandFields) : splitFields (joinFields f) = f := by
  obtain ⟨opc, src, w, z⟩ := f
  simp only [splitFields, joinFields, CommandFields.mk.injEq]
  refine ⟨?_, ?_, ?_, ?_⟩ <;> ext k hk <;> grind

/-- R60: the four fields are the whole word. -/
theorem joinFields_splitFields (w : CommandWord) : joinFields (splitFields w) = w := by
  ext k hk
  simp only [splitFields, joinFields]
  grind

theorem decodeFields_encodeFields (i : Instr) : decodeFields (encodeFields i) = .ok i := by
  cases i <;> rfl

/-- A command without `SRC` and `W` is accepted only with both clear (R62). -/
theorem encodeFields_of_decodePlain {i j : Instr} {f : CommandFields} (h : decodePlain i f = .ok j)
    (hrow : encodeFields i = ⟨f.opc, 0b00#2, 0#1, f.z⟩) : encodeFields j = f := by
  unfold decodePlain at h
  split at h <;> cases h
  next hclear =>
    obtain ⟨hsrc, hw⟩ := hclear
    rw [hrow, ← hsrc, ← hw]

/-- The row of an ADD command has the `SRC` and `W` it was decoded from (R62). -/
theorem encodeFields_of_decodeAdd {f : CommandFields} {i : Instr} (h : decodeAdd f = .ok i) :
    encodeFields i = ⟨0x5#4, f.src, f.w, 0#1⟩ := by
  have hclear : ¬f.w = 1#1 → f.w = 0#1 := (BitVec.eq_zero_or_eq_one f.w).resolve_right
  unfold decodeAdd at h
  split_ifs at h with hV hw hU hw hS hw <;> cases h
  · rw [hV, hw]; rfl
  · rw [hV, hclear hw]; rfl
  · rw [hU, hw]; rfl
  · rw [hU, hclear hw]; rfl
  · rw [hS, hw]; rfl
  · rw [hS, hclear hw]; rfl

/-- The row of a SUB command has the `SRC` and `W` it was decoded from (R62). -/
theorem encodeFields_of_decodeSub {f : CommandFields} {i : Instr} (h : decodeSub f = .ok i) :
    encodeFields i = ⟨0x6#4, f.src, f.w, 0#1⟩ := by
  have hclear : ¬f.w = 1#1 → f.w = 0#1 := (BitVec.eq_zero_or_eq_one f.w).resolve_right
  unfold decodeSub at h
  split_ifs at h with hV hw hU hw hS hw <;> cases h
  · rw [hV, hw]; rfl
  · rw [hV, hclear hw]; rfl
  · rw [hU, hw]; rfl
  · rw [hU, hclear hw]; rfl
  · rw [hS, hw]; rfl
  · rw [hS, hclear hw]; rfl

/-- Accepted fields are the row of the command they give, by the operations of R61. -/
theorem encodeFields_of_decodeFields {f : CommandFields} {i : Instr} (h : decodeFields f = .ok i) :
    encodeFields i = f := by
  unfold decodeFields at h
  rcases ite_eq_iff.1 h with ⟨-, h⟩ | ⟨hset, h⟩
  · cases h
  have hz : f.z = 0#1 := (BitVec.eq_zero_or_eq_one f.z).resolve_right hset
  rcases ite_eq_iff.1 h with ⟨h0, h⟩ | ⟨-, h⟩
  · exact encodeFields_of_decodePlain h (by rw [h0, hz]; rfl)
  rcases ite_eq_iff.1 h with ⟨h1, h⟩ | ⟨-, h⟩
  · exact encodeFields_of_decodePlain h (by rw [h1, hz]; rfl)
  rcases ite_eq_iff.1 h with ⟨h2, h⟩ | ⟨-, h⟩
  · exact encodeFields_of_decodePlain h (by rw [h2, hz]; rfl)
  rcases ite_eq_iff.1 h with ⟨h3, h⟩ | ⟨-, h⟩
  · exact encodeFields_of_decodePlain h (by rw [h3, hz]; rfl)
  rcases ite_eq_iff.1 h with ⟨h4, h⟩ | ⟨-, h⟩
  · exact encodeFields_of_decodePlain h (by rw [h4, hz]; rfl)
  rcases ite_eq_iff.1 h with ⟨h5, h⟩ | ⟨-, h⟩
  · rw [encodeFields_of_decodeAdd h, ← h5, ← hz]
  rcases ite_eq_iff.1 h with ⟨h6, h⟩ | ⟨-, h⟩
  · rw [encodeFields_of_decodeSub h, ← h6, ← hz]
  rcases ite_eq_iff.1 h with ⟨h7, h⟩ | ⟨-, h⟩
  · exact encodeFields_of_decodePlain h (by rw [h7, hz]; rfl)
  cases h

theorem decode_encode (i : Instr) : decode (encode i) = .ok i := by
  rw [decode, encode, splitFields_joinFields, decodeFields_encodeFields]

theorem encode_of_decode {w : CommandWord} {i : Instr} (h : decode w = .ok i) : encode i = w := by
  rw [encode, encodeFields_of_decodeFields h, joinFields_splitFields]

theorem decode_eq_ok_iff {w : CommandWord} {i : Instr} : decode w = .ok i ↔ encode i = w :=
  ⟨encode_of_decode, fun h => h ▸ decode_encode i⟩

/-- Settles O14. -/
theorem decodeAndEncodeAreInverse : Obligations.DecodeAndEncodeAreInverse :=
  ⟨decode_encode, fun _ _ => encode_of_decode⟩

/-- Settles O13: each word is the encoding of its command, bit by bit. -/
theorem tableWordsDecodeToTheirCommands : Obligations.TableWordsDecodeToTheirCommands :=
  ⟨decode_encode .nop, decode_encode .ld32, decode_encode .ld33, decode_encode .addwV, decode_encode .addU,
    decode_encode .addwS, decode_encode .subV, decode_encode .subwU, decode_encode .subS, decode_encode .cmp⟩

namespace Machine

/-- The words of R70, in its order. -/
theorem map_encode_allInstrs : allInstrs.map encode =
    [0x00#8, 0x10#8, 0x20#8, 0x30#8, 0x40#8, 0x50#8, 0x52#8, 0x54#8, 0x56#8, 0x58#8, 0x5A#8, 0x60#8, 0x62#8,
      0x64#8, 0x66#8, 0x68#8, 0x6A#8, 0x70#8] := by
  decide

theorem mem_allInstrs (i : Instr) : i ∈ allInstrs := by
  cases i <;> decide

/-- R63: the legal words are the encodings of the eighteen commands. -/
theorem legal_iff_mem_encodings (w : CommandWord) :
    (splitFields w).legal = true ↔ w ∈ allInstrs.map encode := by
  simp only [← decode_ok_iff_legal, decode_eq_ok_iff, List.mem_map, mem_allInstrs, true_and]

/-- Settles O12. -/
theorem legalWordsAreTheEighteen : Obligations.LegalWordsAreTheEighteen := by
  intro w
  refine ⟨by rw [legal_iff_mem_encodings, map_encode_allInstrs], ?_⟩
  rw [← decode_ok_iff_legal]
  cases decode w <;> simp [Except.toOption]

end Machine

end Sys2Proof
end

section
/-! Operands read from the ports, and what an assembler line drives on them (spec/30_encoding.md R66 to R68). -/

namespace Sys2Proof.Machine

/-- R67: a negative `s(n)` has bit 31 set, so `2^32 − n` fits in 32 bits. -/
theorem negatedMagnitude_toNat_eq_sub {p : Ports} (h : signedN p < 0) :
    (negatedMagnitude p).toNat = 2 ^ 32 - p.n.toNat := by
  rw [signedN_eq] at h
  rw [negatedMagnitude, BitVec.toNat_ofNat]
  split at h <;> omega

/-- R67: a non-negative signed operand keeps the operation, with rollover bit 1. -/
theorem convert_signed_of_nonneg {rollover : BitVec 1} {op : ArithOp} {p : Ports} (h : 0 ≤ signedN p) :
    convert rollover op .signed p = (mkB33 1#1 p.n, op) :=
  if_pos h

/-- R67: a negative signed operand is routed to the other operation. -/
theorem convert_signed_of_neg {rollover : BitVec 1} {op : ArithOp} {p : Ports} (h : signedN p < 0) :
    convert rollover op .signed p = (mkB33 rollover (negatedMagnitude p), op.swap) :=
  if_neg (Int.not_le.2 h)

theorem swap_eq_ite (op : ArithOp) : op.swap = if op = .add then .sub else .add := by
  cases op <;> rfl

/-- Settles O28. -/
theorem operandConversionRoutesByKind : Obligations.OperandConversionRoutesByKind := by
  refine fun rollover op p => ⟨rfl, rfl, convert_signed_of_nonneg, fun hneg => ⟨negatedMagnitude p, ?_, ?_, ?_⟩, rfl⟩
  · exact negatedMagnitude_toNat_eq_sub hneg
  · have habs := negatedMagnitude_toNat hneg
    omega
  · rw [convert_signed_of_neg hneg, swap_eq_ite]

/-- R68 drives `b[32:16]` and `b[15:0]`, which are the fields of R9's `fromNative`. -/
theorem operandB_driveLine_of_some {c : CommandLine} {v : Nat} (draw : Ports) (hb : c.b = some v) :
    operandB (driveLine c draw) = fromNative (BitVec.ofNat 33 v) := by
  apply B33.eq_of_val_eq
  rw [fromNative_val, operandB_val]
  simp only [driveLine, hb, BitVec.extractLsb'_toNat, Nat.shiftRight_eq_div_pow]
  omega

theorem operandB_driveLine_of_none {c : CommandLine} (draw : Ports) (hb : c.b = none) :
    operandB (driveLine c draw) = operandB draw := by
  simp only [operandB, driveLine, hb]

theorem driveLine_n_of_some {c : CommandLine} {v : Int} (draw : Ports) (hn : c.n = some v) :
    (driveLine c draw).n = BitVec.ofInt 32 v := by
  simp only [driveLine, hn]

theorem driveLine_n_of_none {c : CommandLine} (draw : Ports) (hn : c.n = none) :
    (driveLine c draw).n = draw.n := by
  simp only [driveLine, hn]

theorem driveLine_nHi_of_some {c : CommandLine} {v : Nat} (draw : Ports) (hhi : c.hi = some v) :
    (driveLine c draw).nHi = BitVec.ofNat 1 v := by
  simp only [driveLine, hhi]

theorem driveLine_nHi_of_none {c : CommandLine} (draw : Ports) (hhi : c.hi = none) :
    (driveLine c draw).nHi = draw.nHi := by
  simp only [driveLine, hhi]

/-- R66: `u(n)` reads back every value of 32 bits. -/
theorem unsignedN_of_n_eq_ofInt {p : Ports} {v : Int} (hn : p.n = BitVec.ofInt 32 v) (h0 : 0 ≤ v) (h1 : v < 2 ^ 32) :
    (unsignedN p : Int) = v := by
  rw [unsignedN, hn, BitVec.toNat_ofInt]
  omega

/-- R66: `s(n)` reads back every value of two's complement, −2^31 among them. -/
theorem signedN_of_n_eq_ofInt {p : Ports} {v : Int} (hn : p.n = BitVec.ofInt 32 v) (h0 : -2 ^ 31 ≤ v)
    (h1 : v < 2 ^ 31) : signedN p = v := by
  rw [signedN_eq, hn, BitVec.toNat_ofInt]
  split <;> omega

end Sys2Proof.Machine

namespace Sys2Proof.CommandLine

open Sys2Proof.Machine

theorem wellFormed_iff (c : CommandLine) :
    c.wellFormed = true ↔ c.bFits = true ∧ c.nFits = true ∧ c.hiFits = true := by
  simp [wellFormed, Instr.wellFormed, and_assoc]

theorem b_lt_of_bFits {c : CommandLine} {v : Nat} (h : c.bFits = true) (hb : c.b = some v) : v < 2 ^ 33 := by
  simp_all [bFits]

theorem hi_lt_of_hiFits {c : CommandLine} {v : Nat} (h : c.hiFits = true) (hhi : c.hi = some v) : v < 2 := by
  simp_all [hiFits]

/-- R68: a line of a command that reads `n` as unsigned writes a value in [0, 2^32 − 1]. -/
theorem n_of_nFits_unsigned {c : CommandLine} (h : c.nFits = true) (hu : c.instr.nativeUse = .unsigned) :
    ∃ v, c.n = some v ∧ 0 ≤ v ∧ v < 2 ^ 32 := by
  rcases hn : c.n with _ | v <;> simp_all [nFits]

/-- R68: a line of an `.S` form writes a value in [−2^31, 2^31 − 1]. -/
theorem n_of_nFits_signed {c : CommandLine} (h : c.nFits = true) (hu : c.instr.nativeUse = .signed) :
    ∃ v, c.n = some v ∧ -2 ^ 31 ≤ v ∧ v < 2 ^ 31 := by
  rcases hn : c.n with _ | v <;> simp_all [nFits]

theorem n_of_nFits_ignored {c : CommandLine} (h : c.nFits = true) (hu : c.instr.nativeUse = .ignored) :
    c.n = none := by
  rcases hn : c.n with _ | v <;> simp_all [nFits]

end Sys2Proof.CommandLine

namespace Sys2Proof.Machine

/-- Settles O15: the range of each operand a well-formed line writes is the range its port holds. -/
theorem drivenLinesReadBackFromThePorts : Obligations.DrivenLinesReadBackFromThePorts := by
  intro c draw hwf
  obtain ⟨hbFits, hnFits, hhiFits⟩ := (CommandLine.wellFormed_iff c).1 hwf
  refine ⟨rfl, rfl, decode_encode c.instr, fun v hb => ?_, operandB_driveLine_of_none draw, fun hu => ?_,
    fun hu => ?_, fun hu => ?_, fun v hhi => ?_, driveLine_nHi_of_none draw⟩
  · rw [operandB_driveLine_of_some draw hb, fromNative_ofNat_val (CommandLine.b_lt_of_bFits hbFits hb)]
  · obtain ⟨v, hn, h0, h1⟩ := CommandLine.n_of_nFits_unsigned hnFits hu
    rw [hn, unsignedN_of_n_eq_ofInt (driveLine_n_of_some draw hn) h0 h1]
  · obtain ⟨v, hn, h0, h1⟩ := CommandLine.n_of_nFits_signed hnFits hu
    rw [hn, signedN_of_n_eq_ofInt (driveLine_n_of_some draw hn) h0 h1]
  · exact driveLine_n_of_none draw (CommandLine.n_of_nFits_ignored hnFits hu)
  · rw [driveLine_nHi_of_some draw hhi, BitVec.toNat_ofNat]
    exact Nat.mod_eq_of_lt (CommandLine.hi_lt_of_hiFits hhiFits hhi)

end Sys2Proof.Machine
end

section
/-! The pseudo-instructions (spec/30_encoding.md R69): their expansions, and the edges that the expansions drive. -/

namespace Sys2Proof.Machine

/-- R69: LDI splits its value at bit 32. -/
theorem expandLine_ldi {v : Nat} (hv : v < 2 ^ 33) : expandLine (.ldi v) =
    { instr := .ld33, b := none, n := some (((BitVec.ofNat 33 v).extractLsb' 0 32).toNat : Int),
      hi := some ((BitVec.ofNat 33 v).extractLsb' 32 1).toNat } := by
  have hlow : ((BitVec.ofNat 33 v).extractLsb' 0 32).toNat = v % 2 ^ 32 := by
    simp only [BitVec.extractLsb'_toNat, BitVec.toNat_ofNat, Nat.shiftRight_eq_div_pow]
    omega
  have hhigh : ((BitVec.ofNat 33 v).extractLsb' 32 1).toNat = v / 2 ^ 32 := by
    simp only [BitVec.extractLsb'_toNat, BitVec.toNat_ofNat, Nat.shiftRight_eq_div_pow]
    omega
  rw [hlow, hhigh, expandLine]

/-- R69: an operand in the range of the pseudo-instruction is in the range of its expansion. -/
theorem wellFormed_expandLine {l : AsmLine} (h : l.wellFormed = true) : (expandLine l).wellFormed = true := by
  cases l with
  | command c => exact h
  | ldi v =>
    have hv : v < 2 ^ 33 := of_decide_eq_true h
    have hhi : v / 2 ^ 32 < 2 := by omega
    have hfits : CommandLine.nFits (expandLine (.ldi v)) = true := by
      simp only [CommandLine.nFits, expandLine, Instr.nativeUse, decide_eq_true_eq]
      omega
    exact (CommandLine.wellFormed_iff _).2 ⟨rfl, hfits, decide_eq_true hhi⟩
  | mov b =>
    have hb : b < 2 ^ 33 := of_decide_eq_true h
    exact (CommandLine.wellFormed_iff _).2 ⟨decide_eq_true hb, rfl, rfl⟩
  | inc => decide
  | dec => decide
  | tst => decide

/-- R185: the edge after a line is driven runs the line's command, on a block that has been reset. -/
theorem step_driveLine {s t : State} {c : CommandLine} {draw : Ports} (hs : s.resetSeen = true)
    (h : exec c.instr { s with ports := driveLine c draw } = .next t) :
    step { s with ports := driveLine c draw } = .next (presentNext t) :=
  step_command ((executes_iff _).2 ⟨rfl, rfl, hs⟩) (decode_encode c.instr) h

/-- LD33 assembles the two parts that LDI drives into the value again. -/
theorem mkB33_driveLine_ldi {v : Nat} (hv : v < 2 ^ 33) (draw : Ports) :
    mkB33 (driveLine (expandLine (.ldi v)) draw).nHi (driveLine (expandLine (.ldi v)) draw).n =
      fromNative (BitVec.ofNat 33 v) := by
  simp only [expandLine_ldi hv, driveLine, BitVec.ofInt_natCast, BitVec.ofNat_toNat, BitVec.setWidth_eq, fromNative]

/-- The `n` of INC and DEC is ONE. -/
theorem mkB33_ofInt_one : mkB33 0#1 (BitVec.ofInt 32 1) = one33 := by decide

theorem ldi_effect {s : State} {v : Nat} (draw : Ports) (hs : s.resetSeen = true) (hv : v < 2 ^ 33) :
    ∃ t, step { s with ports := driveLine (expandLine (.ldi v)) draw } = .next t ∧
      t.R = fromNative (BitVec.ofNat 33 v) ∧ t.R.val = v := by
  refine ⟨_, step_driveLine hs rfl, ?_⟩
  have hR := mkB33_driveLine_ldi hv draw
  rw [presentNext_R, loadR_R, hR]
  exact ⟨rfl, fromNative_ofNat_val hv⟩

theorem mov_effect {s : State} {v : Nat} (draw : Ports) (hs : s.resetSeen = true) (hv : v < 2 ^ 33) :
    ∃ t, step { s with ports := driveLine (expandLine (.mov v)) draw } = .next t ∧ t.R.val = v := by
  refine ⟨_, step_driveLine hs rfl, ?_⟩
  rw [presentNext_R, loadR_R, operandB_driveLine_of_some draw rfl, fromNative_ofNat_val hv]

theorem inc_effect {s : State} (draw : Ports) (hs : s.resetSeen = true) :
    ∃ t, step { s with ports := driveLine (expandLine .inc) draw } = .next t ∧
      t.R.val = (s.R.val + 1) % 2 ^ 33 := by
  refine ⟨_, step_driveLine hs rfl, ?_⟩
  rw [presentNext_R, compoundForm, loadR_R, arithResult_add_unsigned, driveLine_n_of_some draw rfl, mkB33_ofInt_one,
    add33_val, one33_val]

theorem dec_effect {s : State} (draw : Ports) (hs : s.resetSeen = true) :
    ∃ t, step { s with ports := driveLine (expandLine .dec) draw } = .next t ∧
      (t.R.val : Int) = ((s.R.val : Int) - 1) % 2 ^ 33 := by
  refine ⟨_, step_driveLine hs rfl, ?_⟩
  have hR := s.R.val_lt
  rw [presentNext_R, compoundForm, loadR_R, arithResult_sub_unsigned, driveLine_n_of_some draw rfl, mkB33_ofInt_one,
    sub33_val, one33_val]
  change (((s.R.val + 2 ^ 33 - 1) % 2 ^ 33 : Nat) : Int) = _
  omega

theorem tst_effect {s : State} (draw : Ports) (hs : s.resetSeen = true) :
    ∃ t, step { s with ports := driveLine (expandLine .tst) draw } = .next t ∧
      t.out.rel = relVector s.R zero33 ∧ t.R = s.R := by
  refine ⟨_, step_driveLine hs rfl, ?_⟩
  rw [presentNext_R, presentNext_out, writeOut_R, writeOut_out, operandB_driveLine_of_some draw rfl]
  exact ⟨rfl, rfl⟩

/-- Settles O16. -/
theorem pseudoInstructionsHaveTheirEffects : Obligations.PseudoInstructionsHaveTheirEffects :=
  ⟨fun _ hv => expandLine_ldi hv, fun _ => rfl, rfl, rfl, rfl, fun _ draw hs =>
    ⟨fun _ => wellFormed_expandLine, fun _ => ldi_effect draw hs, fun _ => mov_effect draw hs, inc_effect draw hs,
      dec_effect draw hs, tst_effect draw hs⟩⟩

end Sys2Proof.Machine
end

section
/-! What a command reads: R and the operands of its row, and nothing else of the state (spec/30_encoding.md R66,
spec/10_state.md R24, R26). -/

namespace Sys2Proof.Machine

/-- The two blocks hold the same R and `out`, all the state a block has (R29). -/
def sameBlock (t t' : State) : Prop :=
  t.R = t'.R ∧ t.out = t'.out

section

variable {s s' : State}

theorem sameBlock_writeOut {y y' : B33} {rel rel' : BitVec 6} (hR : s.R = s'.R) (hy : y = y') (hrel : rel = rel') :
    sameBlock (writeOut y rel s) (writeOut y' rel' s') := by
  subst hy hrel
  exact ⟨hR, rfl⟩

/-- A load overwrites R and `out`, so what they held does not matter. -/
theorem sameBlock_loadR {x x' : B33} (hx : x = x') : sameBlock (loadR x s) (loadR x' s') := by
  subst hx
  exact ⟨rfl, rfl⟩

theorem operandB_congr {p q : Ports} (h : p.bMsb17 = q.bMsb17 ∧ p.bLsb16 = q.bLsb16) : operandB p = operandB q := by
  obtain ⟨hmsb, hlsb⟩ := h
  rw [operandB, hmsb, hlsb, operandB]

/-- R67: a value operand is B whatever stands on `n`. -/
theorem convert_value_congr {rollover : BitVec 1} {op : ArithOp} {p q : Ports} (h : operandB p = operandB q) :
    convert rollover op .value p = convert rollover op .value q := by
  rw [convert, h, convert]

theorem convert_unsigned_congr {rollover : BitVec 1} {op : ArithOp} {p q : Ports} (h : p.n = q.n) :
    convert rollover op .unsigned p = convert rollover op .unsigned q := by
  rw [convert, h, convert]

/-- R67: the operand and the route of `.S` are both taken from `n`. -/
theorem convert_signed_congr {rollover : BitVec 1} {op : ArithOp} {p q : Ports} (h : p.n = q.n) :
    convert rollover op .signed p = convert rollover op .signed q := by
  have hs : signedN p = signedN q := by rw [signedN, h, signedN]
  have hm : negatedMagnitude p = negatedMagnitude q := by rw [negatedMagnitude, h, negatedMagnitude]
  rcases lt_or_ge (signedN p) 0 with hneg | hnonneg
  · rw [convert_signed_of_neg hneg, convert_signed_of_neg (hs ▸ hneg), hm]
  · rw [convert_signed_of_nonneg hnonneg, convert_signed_of_nonneg (hs ▸ hnonneg), h]

theorem sameBlock_arithForm {op : ArithOp} {src : RightOperand} (hR : s.R = s'.R)
    (hconv : convert Config.signedNegRollover op src s.ports = convert Config.signedNegRollover op src s'.ports) :
    sameBlock (arithForm op src s) (arithForm op src s') := by
  refine sameBlock_writeOut hR ?_ rfl
  rw [arithResult, hconv, hR, arithResult]

theorem sameBlock_compoundForm {op : ArithOp} {src : RightOperand} (hR : s.R = s'.R)
    (hconv : convert Config.signedNegRollover op src s.ports = convert Config.signedNegRollover op src s'.ports) :
    sameBlock (compoundForm op src s) (compoundForm op src s') := by
  refine sameBlock_loadR ?_
  rw [arithResult, hconv, hR, arithResult]

/-- R66: each command reads the operands of its row alone, beside R. -/
theorem exec_sameBlock (i : Instr) (hR : s.R = s'.R) (h : sameOperands i s.ports s'.ports) :
    ∃ t t', exec i s = .next t ∧ exec i s' = .next t' ∧ sameBlock t t' := by
  obtain ⟨hb, hn, hhi⟩ := h
  cases i with
  | nop => exact ⟨_, _, rfl, rfl, sameBlock_writeOut hR hR rfl⟩
  | cmp => exact ⟨_, _, rfl, rfl, sameBlock_writeOut hR hR (congrArg₂ relVector hR (operandB_congr (hb rfl)))⟩
  | clr => exact ⟨_, _, rfl, rfl, sameBlock_loadR rfl⟩
  | ld32 => exact ⟨_, _, rfl, rfl, sameBlock_loadR (congrArg (mkB33 0#1) (hn nofun))⟩
  | ld33 => exact ⟨_, _, rfl, rfl, sameBlock_loadR (congrArg₂ mkB33 (hhi rfl) (hn nofun))⟩
  | ldv => exact ⟨_, _, rfl, rfl, sameBlock_loadR (operandB_congr (hb rfl))⟩
  | addV | subV => exact ⟨_, _, rfl, rfl, sameBlock_arithForm hR (convert_value_congr (operandB_congr (hb rfl)))⟩
  | addU | subU => exact ⟨_, _, rfl, rfl, sameBlock_arithForm hR (convert_unsigned_congr (hn nofun))⟩
  | addS | subS => exact ⟨_, _, rfl, rfl, sameBlock_arithForm hR (convert_signed_congr (hn nofun))⟩
  | addwV | subwV =>
    exact ⟨_, _, rfl, rfl, sameBlock_compoundForm hR (convert_value_congr (operandB_congr (hb rfl)))⟩
  | addwU | subwU => exact ⟨_, _, rfl, rfl, sameBlock_compoundForm hR (convert_unsigned_congr (hn nofun))⟩
  | addwS | subwS => exact ⟨_, _, rfl, rfl, sameBlock_compoundForm hR (convert_signed_congr (hn nofun))⟩

end

/-- Settles O45. -/
theorem commandsReadOnlyTheirOperands : Obligations.CommandsReadOnlyTheirOperands :=
  fun i _ _ hR h => exec_sameBlock i hR h

end Sys2Proof.Machine
end

section
/-! The accessors as functions of the value, and the round trips with native values (spec/40_construct_access.md R90 to
R96). -/

namespace Sys2Proof.Machine

/-- R9: `fromNative` undoes `toNative`. -/
theorem fromNative_toNative (x : B33) : fromNative (BitVec.ofNat 33 (toNative x)) = x := by
  rw [toNative_eq_val]
  exact B33.eq_of_val_eq (fromNative_ofNat_val x.val_lt)

/-- R9: `toNative` undoes `fromNative`. -/
theorem toNative_fromNative (v : BitVec 33) : toNative (fromNative v) = v.toNat := by
  rw [toNative_eq_val, fromNative_val]

/-- R96 on the ports: what `roll` and `low32` show is the native value of R. -/
theorem toNative_R_eq_roll_low32 (s : State) :
    toNative s.R = (if (outputPorts s).roll then 2 ^ 32 else 0) + (outputPorts s).low32.toNat := rfl

/-- Settles O18: LD33 assembles the two parts of `v` into `fromNative v`, and the ports show its native value. -/
theorem nativeRoundTrips : Obligations.NativeRoundTrips := by
  refine ⟨fromNative_toNative, toNative_fromNative, fun s v hhi hn => ⟨_, rfl, ?_⟩⟩
  rw [← toNative_R_eq_roll_low32, loadR_R, hhi, hn]
  exact toNative_fromNative v

/-- R94 as the source writes it: the value without its low 17 bits, moved to bit 16, beside the low field. -/
theorem highWord32_toNat_eq_or (x : B33) :
    (highWord32 x).toNat = ((x.val >>> 17) <<< 16) ||| (x.val &&& 0xFFFF) := by
  have hlow : x.val &&& 0xFFFF = x.val % 2 ^ 16 := Nat.and_two_pow_sub_one_eq_mod x.val 16
  have hlt : x.val % 2 ^ 16 < 2 ^ 16 := Nat.mod_lt _ (by decide)
  rw [highWord32_toNat, hlow, ← Nat.shiftLeft_add_eq_or_of_lt hlt, Nat.shiftLeft_eq, Nat.shiftRight_eq_div_pow]

/-- Settles O19: each port is its accessor of R, and each accessor has its function of the value. -/
theorem accessorPortsAreFunctionsOfTheValue : Obligations.AccessorPortsAreFunctionsOfTheValue :=
  fun s => ⟨rfl, rolloverBit_iff s.R, rfl, lowWord32_toNat s.R, toNative_R_eq_roll_low32 s, toNative_eq_val s.R, rfl,
    lowBit_iff s.R, rfl, highWord32_toNat_eq_or s.R⟩

/-- Settles O20: R95 makes each accessor output a function of R. -/
theorem accessorPortsReadTheRegisterAlone : Obligations.AccessorPortsReadTheRegisterAlone :=
  ⟨fun _ => ⟨rfl, rfl⟩, fun _ _ hR =>
    ⟨congrArg B33.msb17 hR, congrArg B33.lsb16 hR, congrArg rolloverBit hR, congrArg lowBit hR,
      congrArg highWord32 hR, congrArg lowWord32 hR⟩⟩

end Sys2Proof.Machine
end

section
/-! NOP, CLR and the loads (spec/40_construct_access.md R80 to R85): the whole next state of each, and the edges that
write R. -/

namespace Sys2Proof.Machine

/-- Settles O44: of the four effects of an edge, an idle edge and an illegal command keep R, and so does a command that
writes no whole value. -/
theorem onlyResetAndWholeValueCommandsChangeR : Obligations.OnlyResetAndWholeValueCommandsChangeR := by
  intro s t h hR
  obtain ⟨u, rfl, hu⟩ := step_cases h
  rw [presentNext_R] at hR
  rcases hu with ⟨hrst, -⟩ | ⟨-, -, rfl⟩ | ⟨he, i, hd, hexec⟩ | ⟨-, -, rfl⟩
  · exact .inl hrst
  · exact absurd rfl hR
  · refine .inr ⟨he, i, hd, ?_⟩
    by_contra hi
    exact hR (exec_R_of_no_writeBack hexec hi)
  · exact absurd (takeIllegalCommand_R s) hR

/-- R26, R81 to R84: a load gives both R and `out.y` the new value, and changes nothing beside R and `out`. -/
theorem loadR_eq (x : B33) (s : State) :
    loadR x s = { s with R := x, out := { y := x, rel := 0b000000#6, err := false } } := rfl

theorem exec_nop (s : State) : exec .nop s = .next (writeOut s.R noRelations s) := rfl

theorem exec_clr (s : State) : exec .clr s = .next (loadR zero33 s) := rfl

theorem exec_ld32 (s : State) : exec .ld32 s = .next (loadR (mkB33 0#1 s.ports.n) s) := rfl

theorem exec_ld33 (s : State) : exec .ld33 s = .next (loadR (mkB33 s.ports.nHi s.ports.n) s) := rfl

theorem exec_ldv (s : State) : exec .ldv s = .next (loadR (operandB s.ports) s) := rfl

/-- R82: a value made with rollover bit 0 is the native value itself. -/
theorem mkB33_zero_val (v : BitVec 32) : (mkB33 0#1 v).val = v.toNat := by
  simp [mkB33_val]

/-- R82: its value is below 2^32, so its rollover bit is 0. -/
theorem rolloverBit_mkB33_zero (v : BitVec 32) : rolloverBit (mkB33 0#1 v) = false := by
  rw [← Bool.not_eq_true, rolloverBit_iff, mkB33_zero_val]
  exact Nat.not_le.2 v.isLt

/-- R66: B is the value that has the fields on the ports. -/
theorem eq_operandB {x : B33} {p : Ports} (hmsb : x.msb17 = p.bMsb17) (hlsb : x.lsb16 = p.bLsb16) :
    x = operandB p := by
  rw [operandB, ← hmsb, ← hlsb]

/-- Settles O29. -/
theorem nopRewritesTheOutput : Obligations.NopRewritesTheOutput :=
  ⟨decode_encode .nop, exec_nop⟩

/-- Settles O30. -/
theorem clrWritesZero : Obligations.ClrWritesZero :=
  ⟨decode_encode .clr, by decide, zero33_val, fun s => by rw [exec_clr, loadR_eq]⟩

/-- Settles O31: `mk(0, n)` has the fields by its definition, and its value and rollover bit by R82. -/
theorem ld32LoadsTheNativeValue : Obligations.Ld32LoadsTheNativeValue :=
  ⟨decode_encode .ld32, fun s => ⟨mkB33 0#1 s.ports.n, rfl, rfl, rfl, mkB33_zero_val s.ports.n,
    rolloverBit_mkB33_zero s.ports.n, by rw [exec_ld32, loadR_eq]⟩⟩

/-- Settles O32. -/
theorem ld33LoadsRolloverAndNativeValue : Obligations.Ld33LoadsRolloverAndNativeValue :=
  ⟨decode_encode .ld33, fun s => ⟨mkB33 s.ports.nHi s.ports.n, rfl, rfl, rfl, mkB33_val s.ports.nHi s.ports.n,
    by rw [exec_ld33, loadR_eq]⟩⟩

/-- Settles O33: the two fields on the ports leave one value, B. -/
theorem ldvCopiesBothFields : Obligations.LdvCopiesBothFields :=
  ⟨decode_encode .ldv, fun s x hmsb hlsb => by rw [eq_operandB hmsb hlsb, exec_ldv, loadR_eq]⟩

end Sys2Proof.Machine
end

section
/-! The adder (spec/41_add.md R100, R101): its two fields, and its algebra as that of addition modulo 2^33. -/

namespace Sys2Proof.Machine

/-- R100: the low field is the low sum, masked. -/
theorem add33_lsb16_toNat (a b : B33) :
    (add33 a b).lsb16.toNat = (a.lsb16.toNat + b.lsb16.toNat) % 2 ^ 16 := by
  have hmask : ∀ l : Nat, l &&& 0xFFFF = l % 2 ^ 16 := fun l => Nat.and_two_pow_sub_one_eq_mod l 16
  rw [add33, BitVec.toNat_ofNat, hmask, Nat.mod_mod]

/-- R100: the high field is the high sum with the carry of the low sum, masked. -/
theorem add33_msb17_toNat (a b : B33) :
    (add33 a b).msb17.toNat =
      (a.msb17.toNat + b.msb17.toNat + (a.lsb16.toNat + b.lsb16.toNat) / 2 ^ 16) % 2 ^ 17 := by
  have hmask : ∀ h : Nat, h &&& 0x1FFFF = h % 2 ^ 17 := fun h => Nat.and_two_pow_sub_one_eq_mod h 17
  rw [add33, BitVec.toNat_ofNat, hmask, Nat.mod_mod, Nat.shiftRight_eq_div_pow]

/-- Settles O21. -/
theorem adderCorrectsTheCarry : Obligations.AdderCorrectsTheCarry :=
  fun a b => ⟨add33_lsb16_toNat a b, add33_msb17_toNat a b⟩

theorem add33_comm (a b : B33) : add33 a b = add33 b a := by
  apply B33.eq_of_val_eq
  rw [add33_val, add33_val, Nat.add_comm]

theorem add33_assoc (a b c : B33) : add33 (add33 a b) c = add33 a (add33 b c) := by
  apply B33.eq_of_val_eq
  simp only [add33_val, Nat.mod_add_mod, Nat.add_mod_mod, Nat.add_assoc]

theorem add33_zero33 (a : B33) : add33 a zero33 = a := by
  apply B33.eq_of_val_eq
  rw [add33_val, zero33_val, Nat.add_zero, Nat.mod_eq_of_lt a.val_lt]

/-- R101: MAX33 is −1 modulo 2^33. -/
theorem add33_max33_val (a : B33) : ((add33 a max33).val : Int) = ((a.val : Int) - 1) % 2 ^ 33 := by
  rw [add33_val, max33_val]
  omega

/-- Settles O22: the value determines the fields, so each law is one of sums modulo 2^33. -/
theorem adderIsAdditionModulo : Obligations.AdderIsAdditionModulo :=
  fun a b c => ⟨add33_val a b, add33_comm a b, add33_assoc a b c, add33_zero33 a, add33_max33_val a⟩

end Sys2Proof.Machine
end

section
/-! The ADD commands (spec/41_add.md R102 to R110): the laws of the native forms, and the whole next state of each
command. -/

namespace Sys2Proof.Machine

/-- R9: rollover bit 1 adds 2^32 to the native value. -/
theorem mkB33_one_val (v : BitVec 32) : (mkB33 1#1 v).val = 2 ^ 32 + v.toNat := by
  rw [mkB33_val, BitVec.toNat_one (by decide), Nat.one_mul]

/-- R121 in the integers, where the difference needs no offset. -/
theorem sub33_val_int (a b : B33) : ((sub33 a b).val : Int) = ((a.val : Int) - b.val) % 2 ^ 33 := by
  have hb := b.val_lt
  rw [sub33_val]
  omega

section

variable {rollover : BitVec 1} {r : B33} {p : Ports}

/-- R104, `.U`. -/
theorem arithResult_add_unsigned_val :
    (arithResult rollover .add .unsigned r p).val = (r.val + unsignedN p) % 2 ^ 33 := by
  rw [arithResult_add_unsigned, add33_val, mkB33_zero_val, unsignedN]

/-- R104, `.S` with `s(n) >= 0`: the adder's route, with rollover bit 1. -/
theorem arithResult_add_nonneg_val (h : 0 ≤ signedN p) :
    ((arithResult rollover .add .signed r p).val : Int) = ((r.val : Int) + 2 ^ 32 + signedN p) % 2 ^ 33 := by
  rw [arithResult_add_nonneg h, add33_val, mkB33_one_val, signedN_nonneg_eq h]
  omega

/-- R104, `.S` with `s(n) < 0`: the subtractor's route takes away `|s(n)|` with the parameter as its rollover bit. -/
theorem arithResult_add_neg_val (h : signedN p < 0) :
    ((arithResult rollover .add .signed r p).val : Int) =
      ((r.val : Int) - rollover.toNat * 2 ^ 32 + signedN p) % 2 ^ 33 := by
  have hm := negatedMagnitude_toNat h
  rw [arithResult_add_neg h, sub33_val_int, mkB33_val]
  omega

/-- R104: with parameter 1 both routes add `2^32 + s(n)`, since 2^32 and −2^32 agree modulo 2^33. -/
theorem arithResult_add_signed_val :
    ((arithResult 1#1 .add .signed r p).val : Int) = ((r.val : Int) + 2 ^ 32 + signedN p) % 2 ^ 33 := by
  rcases lt_or_ge (signedN p) 0 with hneg | hnonneg
  · rw [arithResult_add_neg_val hneg, BitVec.toNat_one (by decide)]
    omega
  · exact arithResult_add_nonneg_val hnonneg

end

/-- Settles O40: each clause fixes the sign of `s(n)`, which fixes the route, and the parameter. -/
theorem nativeAddLawsForEitherRollover : Obligations.NativeAddLawsForEitherRollover := by
  refine fun rollover r p => ⟨arithResult_add_unsigned_val, arithResult_add_nonneg_val, ?_, ?_⟩
  · rintro hneg rfl
    have hsum : ((arithResult 1#1 .add .signed r p).val : Int) = ((r.val : Int) + 2 ^ 32 + signedN p) % 2 ^ 33 :=
      arithResult_add_signed_val
    exact ⟨by omega, hsum⟩
  · rintro hneg rfl
    rw [arithResult_add_neg_val hneg, BitVec.toNat_zero, Int.natCast_zero, Int.zero_mul, Int.sub_zero]

/-- R26, R103: a form with `W = 0` changes `out` alone. -/
theorem arithForm_eq (op : ArithOp) (src : RightOperand) (s : State) :
    arithForm op src s =
      { s with out :=
        { y := arithResult Config.signedNegRollover op src s.R s.ports, rel := 0b000000#6, err := false } } := rfl

/-- R103, R123: a compound form gives both R and `out.y` the result, computed from the old R. -/
theorem compoundForm_eq (op : ArithOp) (src : RightOperand) (s : State) :
    compoundForm op src s =
      { s with
        R := arithResult Config.signedNegRollover op src s.R s.ports
        out := { y := arithResult Config.signedNegRollover op src s.R s.ports, rel := 0b000000#6, err := false } } := by
  rw [compoundForm, loadR_eq]

theorem exec_addV (s : State) : exec .addV s = .next (arithForm .add .value s) := rfl

theorem exec_addwV (s : State) : exec .addwV s = .next (compoundForm .add .value s) := rfl

theorem exec_addU (s : State) : exec .addU s = .next (arithForm .add .unsigned s) := rfl

theorem exec_addwU (s : State) : exec .addwU s = .next (compoundForm .add .unsigned s) := rfl

theorem exec_addS (s : State) : exec .addS s = .next (arithForm .add .signed s) := rfl

theorem exec_addwS (s : State) : exec .addwS s = .next (compoundForm .add .signed s) := rfl

/-- Settles O34. -/
theorem addValueForms : Obligations.AddValueForms :=
  ⟨decode_encode .addV, decode_encode .addwV, fun s => ⟨add33 s.R (operandB s.ports), rfl, add33_val _ _,
    by rw [exec_addV, arithForm_eq, arithResult_add_value],
    by rw [exec_addwV, compoundForm_eq, arithResult_add_value]⟩⟩

/-- Settles O35. -/
theorem addUnsignedForms : Obligations.AddUnsignedForms :=
  ⟨decode_encode .addU, decode_encode .addwU, fun s =>
    ⟨arithResult Config.signedNegRollover .add .unsigned s.R s.ports, arithResult_add_unsigned,
      arithResult_add_unsigned_val,
      by rw [exec_addU, arithForm_eq], by rw [exec_addwU, compoundForm_eq]⟩⟩

/-- Settles O36: R67's route by sign, and one law for both signs at this hardware's parameter. -/
theorem addSignedForms : Obligations.AddSignedForms :=
  ⟨decode_encode .addS, decode_encode .addwS, fun s =>
    ⟨arithResult Config.signedNegRollover .add .signed s.R s.ports, arithResult_add_nonneg,
      arithResult_add_neg, arithResult_add_signed_val,
      by rw [exec_addS, arithForm_eq], by rw [exec_addwS, compoundForm_eq]⟩⟩

end Sys2Proof.Machine
end

section
/-! The subtractor (spec/42_sub.md R120 to R122): its two branches, and its fields as the digits of the value. -/

namespace Sys2Proof.Machine

/-- R9: the fields of a value are its two digits in base 2^16. -/
theorem fields_eq_of_val_eq {x : B33} {h l : Int} (hval : (x.val : Int) = h * 2 ^ 16 + l) (hl0 : 0 ≤ l)
    (hl1 : l < 2 ^ 16) : (x.msb17.toNat : Int) = h ∧ (x.lsb16.toNat : Int) = l := by
  have hx := x.lsb16.isLt
  rw [B33.val] at hval
  omega

/-- R122: MAX33 is the greatest value, so it takes the GE branch. -/
theorem ge33_max33 (b : B33) : ge33 max33 b = true := by
  rw [ge33_iff, max33_val]
  exact Nat.le_pred_of_lt b.val_lt

theorem sub33_of_ge {a b : B33} (h : ge33 a b = true) : sub33 a b = subFields a b :=
  if_pos h

/-- R120, the LT branch: the model's recursion of depth one is the source's, by R122. -/
theorem sub33_of_not_ge {a b : B33} (h : ge33 a b = false) :
    sub33 a b = add33 (sub33 max33 b) (add33 a one33) := by
  rw [sub33_of_ge (ge33_max33 b)]
  exact if_neg (Bool.eq_false_iff.1 h)

/-- R120, the GE branch: the exact difference of the values, digit by digit. -/
theorem sub33_val_of_ge {a b : B33} (h : ge33 a b = true) :
    ((sub33 a b).val : Int) =
      ((a.msb17.toNat : Int) - b.msb17.toNat) * 2 ^ 16 + ((a.lsb16.toNat : Int) - b.lsb16.toNat) := by
  have hle : b.val ≤ a.val := (ge33_iff a b).1 h
  rw [sub33_of_ge h, subFields_val hle]
  simp only [B33.val] at hle ⊢
  omega

/-- R120 without a borrow: the digits of the difference are the differences of the digits. -/
theorem sub33_fields_of_no_borrow {a b : B33} (h : ge33 a b = true) (hl : b.lsb16.toNat ≤ a.lsb16.toNat) :
    ((sub33 a b).msb17.toNat : Int) = (a.msb17.toNat : Int) - b.msb17.toNat ∧
      ((sub33 a b).lsb16.toNat : Int) = (a.lsb16.toNat : Int) - b.lsb16.toNat := by
  have ha := a.lsb16.isLt
  exact fields_eq_of_val_eq (sub33_val_of_ge h) (by omega) (by omega)

/-- R120 with a borrow: the low digit takes 2^16 from the high one. -/
theorem sub33_fields_of_borrow {a b : B33} (h : ge33 a b = true) (hl : a.lsb16.toNat < b.lsb16.toNat) :
    ((sub33 a b).msb17.toNat : Int) = (a.msb17.toNat : Int) - b.msb17.toNat - 1 ∧
      ((sub33 a b).lsb16.toNat : Int) = (a.lsb16.toNat : Int) - b.lsb16.toNat + 2 ^ 16 := by
  have hb := b.lsb16.isLt
  have hval := sub33_val_of_ge h
  exact fields_eq_of_val_eq (by omega) (by omega) (by omega)

/-- Settles O23. -/
theorem subtractorMeetsItsRecursiveRule : Obligations.SubtractorMeetsItsRecursiveRule :=
  fun _ _ => ⟨sub33_fields_of_no_borrow, sub33_fields_of_borrow, sub33_of_not_ge⟩

/-- Settles O24. -/
theorem subtractorIsSubtractionModulo : Obligations.SubtractorIsSubtractionModulo :=
  fun a b => ⟨sub33_val_int a b, (sub33 a b).val_lt⟩

/-- R122: no digit of MAX33 is below the digit taken from it, so there is no borrow. -/
theorem sub33_max33_fields (b : B33) :
    (sub33 max33 b).msb17.toNat = 0x1FFFF - b.msb17.toNat ∧
      (sub33 max33 b).lsb16.toNat = 0xFFFF - b.lsb16.toNat := by
  have hmsb : max33.msb17.toNat = 0x1FFFF := by decide
  have hlsb : max33.lsb16.toNat = 0xFFFF := by decide
  have hb := b.lsb16.isLt
  obtain ⟨hh, hl⟩ := sub33_fields_of_no_borrow (ge33_max33 b) (by omega)
  omega

/-- R122: taking each field from all ones complements it. -/
theorem sub33_max33 (b : B33) : sub33 max33 b = { msb17 := ~~~b.msb17, lsb16 := ~~~b.lsb16 } := by
  obtain ⟨hh, hl⟩ := sub33_max33_fields b
  apply B33.eq_of_val_eq
  rw [B33.val, hh, hl, B33.val, BitVec.toNat_not, BitVec.toNat_not]

/-- Settles O25. -/
theorem subtractingFromMaxComplements : Obligations.SubtractingFromMaxComplements :=
  fun b => ⟨ge33_max33 b, sub33_max33 b, sub33_max33_fields b⟩

end Sys2Proof.Machine
end

section
/-! The SUB commands (spec/42_sub.md R123 to R130): the laws of the native forms, and the whole next state of each
command. -/

namespace Sys2Proof.Machine

section

variable {rollover : BitVec 1} {r : B33} {p : Ports}

/-- R124, `.U`. -/
theorem arithResult_sub_unsigned_val :
    ((arithResult rollover .sub .unsigned r p).val : Int) = ((r.val : Int) - unsignedN p) % 2 ^ 33 := by
  rw [arithResult_sub_unsigned, sub33_val_int, mkB33_zero_val, unsignedN]

/-- R124, `.S` with `s(n) >= 0`: the subtractor's route, with rollover bit 1. -/
theorem arithResult_sub_nonneg_val (h : 0 ≤ signedN p) :
    ((arithResult rollover .sub .signed r p).val : Int) = ((r.val : Int) - 2 ^ 32 - signedN p) % 2 ^ 33 := by
  rw [arithResult_sub_nonneg h, sub33_val_int, mkB33_one_val, signedN_nonneg_eq h]
  omega

/-- R124, `.S` with `s(n) < 0`: the adder's route adds `|s(n)|` with the parameter as its rollover bit. -/
theorem arithResult_sub_neg_val (h : signedN p < 0) :
    ((arithResult rollover .sub .signed r p).val : Int) =
      ((r.val : Int) + rollover.toNat * 2 ^ 32 - signedN p) % 2 ^ 33 := by
  have hm := negatedMagnitude_toNat h
  rw [arithResult_sub_neg h, add33_val, mkB33_val]
  omega

/-- R124: taking away 2^32 and adding it agree modulo 2^33. -/
theorem sub_two_pow_emod_eq_add (x y : Int) : (x - 2 ^ 32 - y) % 2 ^ 33 = (x + 2 ^ 32 - y) % 2 ^ 33 := by
  omega

/-- R124: with parameter 1 both routes give `R + 2^32 − s(n)`. -/
theorem arithResult_sub_signed_val :
    ((arithResult 1#1 .sub .signed r p).val : Int) = ((r.val : Int) + 2 ^ 32 - signedN p) % 2 ^ 33 := by
  rcases lt_or_ge (signedN p) 0 with hneg | hnonneg
  · rw [arithResult_sub_neg_val hneg, BitVec.toNat_one (by decide), Int.natCast_one, Int.one_mul]
  · rw [arithResult_sub_nonneg_val hnonneg, sub_two_pow_emod_eq_add]

end

/-- Settles O41: each clause fixes the sign of `s(n)`, which fixes the route, and the parameter. -/
theorem nativeSubLawsForEitherRollover : Obligations.NativeSubLawsForEitherRollover := by
  refine fun rollover r p => ⟨arithResult_sub_unsigned_val, fun hnonneg => ?_, ?_, ?_⟩
  · have hdiff := arithResult_sub_nonneg_val (rollover := rollover) (r := r) hnonneg
    exact ⟨hdiff, hdiff.trans (sub_two_pow_emod_eq_add _ _)⟩
  · rintro hneg rfl
    have habs : ((signedN p).natAbs : Int) = -signedN p := Int.ofNat_natAbs_of_nonpos hneg.le
    rw [habs, ← Int.sub_eq_add_neg]
    exact ⟨arithResult_sub_signed_val, arithResult_sub_signed_val⟩
  · rintro hneg rfl
    rw [arithResult_sub_neg_val hneg, BitVec.toNat_zero, Int.natCast_zero, Int.zero_mul, Int.add_zero]

theorem exec_subV (s : State) : exec .subV s = .next (arithForm .sub .value s) := rfl

theorem exec_subwV (s : State) : exec .subwV s = .next (compoundForm .sub .value s) := rfl

theorem exec_subU (s : State) : exec .subU s = .next (arithForm .sub .unsigned s) := rfl

theorem exec_subwU (s : State) : exec .subwU s = .next (compoundForm .sub .unsigned s) := rfl

theorem exec_subS (s : State) : exec .subS s = .next (arithForm .sub .signed s) := rfl

theorem exec_subwS (s : State) : exec .subwS s = .next (compoundForm .sub .signed s) := rfl

/-- Settles O37. -/
theorem subValueForms : Obligations.SubValueForms :=
  ⟨decode_encode .subV, decode_encode .subwV, fun s => ⟨sub33 s.R (operandB s.ports), rfl, sub33_val_int _ _,
    by rw [exec_subV, arithForm_eq, arithResult_sub_value],
    by rw [exec_subwV, compoundForm_eq, arithResult_sub_value]⟩⟩

/-- Settles O38. -/
theorem subUnsignedForms : Obligations.SubUnsignedForms :=
  ⟨decode_encode .subU, decode_encode .subwU, fun s =>
    ⟨arithResult Config.signedNegRollover .sub .unsigned s.R s.ports, arithResult_sub_unsigned,
      arithResult_sub_unsigned_val,
      by rw [exec_subU, arithForm_eq], by rw [exec_subwU, compoundForm_eq]⟩⟩

/-- Settles O39: R67's route by sign, and one law for both signs at this hardware's parameter. -/
theorem subSignedForms : Obligations.SubSignedForms :=
  ⟨decode_encode .subS, decode_encode .subwS, fun s =>
    ⟨arithResult Config.signedNegRollover .sub .signed s.R s.ports, arithResult_sub_nonneg,
      arithResult_sub_neg, arithResult_sub_signed_val,
      by rw [exec_subS, arithForm_eq], by rw [exec_subwS, compoundForm_eq]⟩⟩

end Sys2Proof.Machine
end

section
/-! The comparator and CMP (spec/43_compare.md R140 to R143): the order on the fields, the order of the values, and the
six bits of the relation vector. -/

namespace Sys2Proof.Machine

/-- R140: equality, field by field. -/
theorem eq33_iff_fields (a b : B33) : eq33 a b = true ↔ a.msb17 = b.msb17 ∧ a.lsb16 = b.lsb16 := by
  rw [eq33, Bool.and_eq_true, beq_iff_eq, beq_iff_eq]

/-- R140: the high fields decide, and equal high fields leave the decision to the low ones. -/
theorem lt33_iff_fields (a b : B33) :
    lt33 a b = true ↔ a.msb17.toNat < b.msb17.toNat ∨ (a.msb17 = b.msb17 ∧ a.lsb16.toNat < b.lsb16.toNat) := by
  rw [lt33, Bool.or_eq_true, Bool.and_eq_true, beq_iff_eq, BitVec.ult_iff_lt, BitVec.ult_iff_lt, BitVec.lt_def,
    BitVec.lt_def]

/-- Settles O26. -/
theorem comparatorFollowsTheFields : Obligations.ComparatorFollowsTheFields :=
  fun a b => ⟨eq33_iff_fields a b, lt33_iff_fields a b, rfl, rfl, rfl, rfl⟩

theorem lt33_irrefl (a : B33) : lt33 a a = false := by
  rw [← Bool.not_eq_true, lt33_iff]
  exact Nat.lt_irrefl a.val

theorem lt33_trans {a b c : B33} (hab : lt33 a b = true) (hbc : lt33 b c = true) : lt33 a c = true := by
  rw [lt33_iff] at hab hbc ⊢
  exact Nat.lt_trans hab hbc

theorem lt33_trichotomy (a b : B33) : lt33 a b = true ∨ a = b ∨ lt33 b a = true := by
  rw [lt33_iff, lt33_iff, ← B33.val_inj]
  exact Nat.lt_trichotomy a.val b.val

/-- Settles O27: the order is that of the values, which determine the fields. -/
theorem orderIsTheStrictTotalOrderOfValues : Obligations.OrderIsTheStrictTotalOrderOfValues :=
  fun a b _ => ⟨lt33_iff a b, eq33_iff a b, lt33_irrefl a, lt33_trans, lt33_trichotomy a b⟩

/-- R141: the vector, one relation joined on at the low end after another. -/
theorem relVector_eq_concat (a b : B33) : relVector a b =
    (((((BitVec.ofBool (ge33 a b)).concat (gt33 a b)).concat (le33 a b)).concat (lt33 a b)).concat
      (ne33 a b)).concat (eq33 a b) := rfl

/-- R141: the vector has `eq` in bit 0 and `ge` in bit 5. -/
theorem relVector_bits (a b : B33) :
    (relVector a b).getLsbD 0 = eq33 a b ∧ (relVector a b).getLsbD 1 = ne33 a b ∧
    (relVector a b).getLsbD 2 = lt33 a b ∧ (relVector a b).getLsbD 3 = le33 a b ∧
    (relVector a b).getLsbD 4 = gt33 a b ∧ (relVector a b).getLsbD 5 = ge33 a b := by
  simp [relVector_eq_concat, BitVec.getElem_concat]

theorem relVector_of_lt {a b : B33} (h : a.val < b.val) : relVector a b = 0b001110#6 := by
  rcases relVector_cases a b with ⟨heq, -⟩ | ⟨-, hrel⟩ | ⟨hgt, -⟩
  · exact absurd heq h.ne
  · exact hrel
  · exact absurd hgt h.asymm

theorem relVector_of_eq {a b : B33} (h : a.val = b.val) : relVector a b = 0b101001#6 := by
  rcases relVector_cases a b with ⟨-, hrel⟩ | ⟨hlt, -⟩ | ⟨hgt, -⟩
  · exact hrel
  · exact absurd h hlt.ne
  · exact absurd h hgt.ne'

theorem relVector_of_gt {a b : B33} (h : b.val < a.val) : relVector a b = 0b110010#6 := by
  rcases relVector_cases a b with ⟨heq, -⟩ | ⟨hlt, -⟩ | ⟨-, hrel⟩
  · exact absurd heq h.ne'
  · exact absurd hlt h.asymm
  · exact hrel

/-- R142: CMP shows R on `out.y` and the relations of R against B on `out.rel`, and changes `out` alone. -/
theorem exec_cmp (s : State) : exec .cmp s =
    .next { s with out := { y := s.R, rel := relVector s.R (operandB s.ports), err := false } } := rfl

/-- Settles O42: the vector by its bits, and by the three orders of the values. -/
theorem cmpWritesTheSixRelations : Obligations.CmpWritesTheSixRelations := by
  refine ⟨decode_encode .cmp, fun s => ⟨relVector s.R (operandB s.ports), exec_cmp s, ?_⟩⟩
  obtain ⟨heq, hne, hlt, hle, hgt, hge⟩ := relVector_bits s.R (operandB s.ports)
  exact ⟨heq, hne, hlt, hle, hgt, hge, relVector_of_lt, relVector_of_eq, relVector_of_gt⟩

end Sys2Proof.Machine
end

section
/-! The canonical text form (spec/44_text_form.md R150, R153, R154): which character stands at each place, and the
rollover digit and the eight digits of `LOW32` give the value back. -/

namespace Sys2Proof.Machine

/-- R150: sixteen digits, so `hexDigit` never takes its default. -/
theorem hexDigits_getElem? (d : BitVec 4) : hexDigits[d.toNat]? = some (hexDigit d) := by
  have hd : d.toNat < hexDigits.length := d.isLt
  rw [hexDigit, List.getD_eq_getElem _ _ hd, List.getElem?_eq_getElem hd]

/-- The sixteen digits are different characters. -/
theorem hexDigit_inj {d e : BitVec 4} : hexDigit d = hexDigit e ↔ d = e := by
  refine ⟨fun h => BitVec.eq_of_toNat_eq ?_, congrArg hexDigit⟩
  have hnodup : hexDigits.Nodup := by decide
  have hget : hexDigits[d.toNat]? = hexDigits[e.toNat]? := by
    rw [hexDigits_getElem?, hexDigits_getElem?, h]
  exact (List.getElem?_inj d.isLt hnodup).1 hget

theorem rolloverDigit_eq (r : Bool) : hexDigit (if r then 1#4 else 0#4) = if r then '1' else '0' := by
  cases r <;> rfl

theorem rolloverDigit_inj : ∀ {r q : Bool}, (if r then '1' else '0') = (if q then '1' else '0') → r = q := by
  decide

theorem lowDigit_eq_getElem? (x : B33) (lo : Nat) :
    hexDigits[((lowWord32 x).toNat >>> lo) % 16]? = some (lowDigit x lo) := by
  rw [lowDigit, ← hexDigits_getElem?, BitVec.extractLsb'_toNat]

/-- R150: after `0x` comes the rollover digit. -/
theorem fmtChars_rollover (x : B33) : (fmtChars x)[2]? = some (if rolloverBit x then '1' else '0') :=
  congrArg some (rolloverDigit_eq (rolloverBit x))

/-- R150: then the digits of `LOW32`, the most significant first. -/
theorem fmtChars_lowDigit (x : B33) {j : Nat} (hj : j < 8) :
    (fmtChars x)[3 + j]? = some (lowDigit x (28 - 4 * j)) := by
  interval_cases j <;> rfl

/-- A 32-bit word is determined by its eight groups of four bits: bit `i` stands in group `7 - i / 4` from the top. -/
theorem eq_of_nibbles_eq {v w : BitVec 32}
    (h : ∀ j, j < 8 → v.extractLsb' (28 - 4 * j) 4 = w.extractLsb' (28 - 4 * j) 4) : v = w := by
  refine BitVec.eq_of_getLsbD_eq fun i hi => ?_
  have hbit := congrArg (·.getLsbD (i % 4)) (h (7 - i / 4) (by omega))
  have hmod : i % 4 < 4 := Nat.mod_lt i (by decide)
  have hpos : 28 - 4 * (7 - i / 4) + i % 4 = i := by omega
  simpa [BitVec.getLsbD_extractLsb', hmod, hpos] using hbit

/-- R92 and R153: `(ROLL, LOW32)` determines the value. -/
theorem eq_of_rolloverBit_lowWord32 {x y : B33} (hroll : rolloverBit x = rolloverBit y)
    (hlow : lowWord32 x = lowWord32 y) : x = y := by
  have hnative : toNative x = toNative y := by rw [toNative, toNative, hroll, hlow]
  rwa [toNative_eq_val, toNative_eq_val, B33.val_inj] at hnative

theorem rolloverBit_eq_of_fmtChars {x y : B33} (h : fmtChars x = fmtChars y) : rolloverBit x = rolloverBit y := by
  have hdigit : (fmtChars x)[2]? = (fmtChars y)[2]? := by rw [h]
  rw [fmtChars_rollover, fmtChars_rollover] at hdigit
  exact rolloverDigit_inj (Option.some.inj hdigit)

theorem lowWord32_eq_of_fmtChars {x y : B33} (h : fmtChars x = fmtChars y) : lowWord32 x = lowWord32 y := by
  refine eq_of_nibbles_eq fun j hj => hexDigit_inj.1 ?_
  have hdigit : (fmtChars x)[3 + j]? = (fmtChars y)[3 + j]? := by rw [h]
  rw [fmtChars_lowDigit x hj, fmtChars_lowDigit y hj] at hdigit
  exact Option.some.inj hdigit

/-- R153: distinct values give distinct strings. -/
theorem fmtString_injective {x y : B33} (h : fmtString x = fmtString y) : x = y := by
  have hchars : fmtChars x = fmtChars y := String.ofList_injective h
  exact eq_of_rolloverBit_lowWord32 (rolloverBit_eq_of_fmtChars hchars) (lowWord32_eq_of_fmtChars hchars)

/-- Settles O52: the characters by place, and the value read back from them. -/
theorem textFormHasElevenCharactersAndIsInjective : Obligations.TextFormHasElevenCharactersAndIsInjective :=
  ⟨fun x => ⟨rfl, rfl, fmtChars_rollover x,
      fun j hj => (fmtChars_lowDigit x hj).trans (lowDigit_eq_getElem? x (28 - 4 * j)).symm, rfl, rfl⟩,
    fun _ _ => fmtString_injective⟩

/-- Settles O53: five fixed values, each evaluated. -/
theorem textFormExamples : Obligations.TextFormExamples :=
  ⟨by decide, by decide, by decide, by decide, by decide⟩

end Sys2Proof.Machine
end

section
/-! IllegalCommand (spec/60_exceptions.md R160, R161): which edges raise it, what it writes to `out.err` and to the fault
mark, and the runs of a host that presents no illegal command. -/

namespace Sys2Proof.Machine

/-- R160, R164: an edge that executes is legal as its word is. -/
theorem edgeLegal_of_executes {s : State} (he : executes s = true) :
    edgeLegal s.ports = (splitFields s.ports.cmd).legal := by
  obtain ⟨hrst, hvalid, -⟩ := (executes_iff s).1 he
  simp [edgeLegal, hrst, hvalid]

theorem legal_of_decode_ok {w : CommandWord} {i : Instr} (h : decode w = .ok i) : (splitFields w).legal = true :=
  (decode_ok_iff_legal w).1 ⟨i, h⟩

theorem legal_of_decode_error {w : CommandWord} {e : DecodeReject} (h : decode w = .error e) :
    (splitFields w).legal = false := by
  rw [← Bool.not_eq_true, ← decode_ok_iff_legal]
  rintro ⟨i, hok⟩
  cases h.symm.trans hok

theorem decode_error_of_illegal {w : CommandWord} (h : (splitFields w).legal = false) :
    ∃ e, decode w = .error e := by
  rcases hd : decode w with e | i
  · exact ⟨e, rfl⟩
  · simp [legal_of_decode_ok hd] at h

/-- R160, R161: an executed edge completes and writes `out.err`, setting it for an illegal word alone. -/
theorem exists_step_err_of_executes {s : State} (he : executes s = true) :
    ∃ t, step s = .next t ∧ t.out.err = !(splitFields s.ports.cmd).legal := by
  rcases hd : decode s.ports.cmd with e | i
  · exact ⟨_, step_illegal he hd, by simp [legal_of_decode_error hd]⟩
  · obtain ⟨u, hu⟩ := exec_completes i s
    obtain ⟨-, -, -, -, herr, -⟩ := exec_frame hu
    exact ⟨_, step_command he hd hu, by simp [herr, legal_of_decode_ok hd]⟩

/-- R161: an edge that presents an illegal command records the mark; a reset (log entry 2), an idle edge and a legal
command keep it. -/
theorem step_faultMark {s t : State} (h : step s = .next t) :
    t.faultMark = if edgeLegal s.ports then s.faultMark else some .illegalCommand := by
  obtain ⟨u, rfl, hu⟩ := step_cases h
  rw [presentNext_faultMark]
  rcases hu with ⟨hrst, rfl⟩ | ⟨-, hvalid, rfl⟩ | ⟨he, i, hd, hexec⟩ | ⟨he, ⟨e, hd⟩, rfl⟩
  · simp [edgeLegal, hrst]
  · simp [edgeLegal, hvalid]
  · obtain ⟨-, -, hmark, -⟩ := exec_frame hexec
    simp [edgeLegal_of_executes he, legal_of_decode_ok hd, hmark]
  · simp [edgeLegal_of_executes he, legal_of_decode_error hd]

/-- R161: no step clears the mark of a run, and there is no other mark to change it to. -/
theorem step_keeps_faultMark {s t : State} {f : Fault} (h : step s = .next t) (hs : s.faultMark = some f) :
    t.faultMark = some f := by
  cases f
  simp [step_faultMark h, hs]

/-- A step that leaves no mark found none and presented no illegal command. -/
theorem step_faultMark_eq_none_iff {s t : State} (h : step s = .next t) :
    t.faultMark = none ↔ edgeLegal s.ports = true ∧ s.faultMark = none := by
  rw [step_faultMark h]
  rcases edgeLegal s.ports with _ | _ <;> simp

/-- A step hands the schedule on: what the host was to drive at the `j`-th edge after this one now stands at place
`j`. -/
theorem step_presents_getElem? {s t : State} {j : Nat} {p : Ports} (h : step s = .next t)
    (hp : s.schedule[j]? = some p) : (t.ports :: t.schedule)[j]? = some p := by
  obtain ⟨-, hcons⟩ := edgePresentsTheNextPortValues s t h
  rcases hsched : s.schedule with _ | ⟨q, qs⟩
  · simp [hsched] at hp
  · obtain ⟨hports, hrest⟩ := hcons q qs hsched
    rwa [hports, hrest, ← hsched]

/-- The host's legality is handed on too; past the end of its schedule it is idle, which is legal. -/
theorem step_keeps_hostLegal {s t : State} (hs : hostLegal s = true) (h : step s = .next t) :
    hostLegal t = true := by
  obtain ⟨hnil, hcons⟩ := edgePresentsTheNextPortValues s t h
  rcases hsched : s.schedule with _ | ⟨p, ps⟩
  · obtain ⟨hports, hrest⟩ := hnil hsched
    rw [hostLegal, hports, hrest]
    rfl
  · obtain ⟨hports, hrest⟩ := hcons p ps hsched
    rw [hostLegal, hsched, Bool.and_eq_true] at hs
    obtain ⟨-, hlegal⟩ := hs
    rw [hostLegal, hports, hrest]
    exact hlegal

/-- What gives a next state and is kept at every edge lasts through a run of any length. -/
theorem run_of_step_progress {P : State → Prop} (hstep : ∀ s, P s → ∃ t, step s = .next t ∧ P t) (k : Nat)
    (s : State) (hs : P s) : ∃ t, core.run k s = .next t ∧ P t := by
  induction k generalizing s with
  | zero => exact ⟨s, rfl, hs⟩
  | succ k ih =>
    obtain ⟨u, hu, hPu⟩ := hstep s hs
    rw [run_succ_of_step hu]
    exact ih u hPu

/-- The premise of a fault-free run (R161): a block that has been reset, no mark so far, and a host that presents no
illegal command. -/
def LegalHostUnmarked (s : State) : Prop :=
  s.resetSeen = true ∧ s.faultMark = none ∧ hostLegal s = true

theorem legalHostUnmarked_step {s : State} (hs : LegalHostUnmarked s) :
    ∃ t, step s = .next t ∧ LegalHostUnmarked t := by
  obtain ⟨hseen, hmark, hhost⟩ := hs
  obtain ⟨t, ht⟩ := step_completes hseen
  obtain ⟨hedge, -⟩ := Bool.and_eq_true_iff.1 hhost
  exact ⟨t, ht, step_keeps_resetSeen hseen ht, (step_faultMark_eq_none_iff ht).2 ⟨hedge, hmark⟩,
    step_keeps_hostLegal hhost ht⟩

/-- Settles O50: the premise gives a next state at the coming edge and holds there again. -/
theorem legalHostRunsWithoutFault : Obligations.LegalHostRunsWithoutFault := by
  intro k s hseen hmark hhost
  have hs : LegalHostUnmarked s := ⟨hseen, hmark, hhost⟩
  obtain ⟨t, ht, -, hmark', hhost'⟩ := run_of_step_progress (fun _ => legalHostUnmarked_step) k s hs
  exact ⟨t, ht, hmark', hhost'⟩

/-- Settles O6. -/
theorem errorIsRaisedExactlyByIllegalWords : Obligations.ErrorIsRaisedExactlyByIllegalWords := by
  refine ⟨rfl, fun s he => ?_, fun i s t h => ?_⟩
  · obtain ⟨t, ht, herr⟩ := exists_step_err_of_executes he
    exact ⟨t, ht, by simp [herr]⟩
  · obtain ⟨-, -, -, -, herr, -⟩ := exec_frame h
    exact herr

/-- Settles O7: the fields of `takeIllegalCommand`, then `out.err` at a legal word, then the mark at any edge. -/
theorem illegalCommandChangesOnlyErrAndIsRemembered : Obligations.IllegalCommandChangesOnlyErrAndIsRemembered := by
  refine ⟨fun s he hillegal => ?_, fun s he hlegal => ?_, fun s t f _ h hmark => step_keeps_faultMark h hmark⟩
  · obtain ⟨e, hd⟩ := decode_error_of_illegal hillegal
    exact ⟨_, step_illegal he hd, by simp [correctEnd]⟩
  · obtain ⟨t, ht, herr⟩ := exists_step_err_of_executes he
    exact ⟨t, ht, by simp [herr, hlegal]⟩

/-- A run that ends without a mark began without one. -/
theorem faultMark_eq_none_of_run {k : Nat} {s t : State} (h : core.run k s = .next t) (ht : t.faultMark = none) :
    s.faultMark = none := by
  induction k generalizing s with
  | zero =>
    cases h
    exact ht
  | succ k ih =>
    obtain ⟨u, hu, hrun⟩ := run_succ_cases h
    obtain ⟨-, hmark⟩ := (step_faultMark_eq_none_iff hu).1 (ih hrun)
    exact hmark

/-- Settles O51, by the first edge of the run and the edges after it. -/
theorem runsWithoutFaultPresentedNoIllegalCommand : Obligations.RunsWithoutFaultPresentedNoIllegalCommand := by
  intro k
  induction k with
  | zero => exact fun s t _ _ j p hj => absurd hj j.not_lt_zero
  | succ k ih =>
    intro s t h ht j p hj hp
    obtain ⟨u, hu, hrun⟩ := run_succ_cases h
    cases j with
    | zero =>
      obtain ⟨hedge, -⟩ := (step_faultMark_eq_none_iff hu).1 (faultMark_eq_none_of_run hrun ht)
      cases hp
      exact hedge
    | succ j => exact ih u t hrun ht j p (Nat.lt_of_succ_lt_succ hj) (step_presents_getElem? hu hp)

/-- Settles O8, by the fields of `resetEdge`. -/
theorem resetEdgeKeepsTheFaultMark : Obligations.ResetEdgeKeepsTheFaultMark := by
  intro s hrst
  exact ⟨_, step_reset hrst, by simp, by simp⟩

end Sys2Proof.Machine
end

section
/-! What a rising edge is, by its kind (spec/70_reset_and_hazards.md R180 to R186): refused, reset, idle or executed. -/

namespace Sys2Proof.Machine

/-- Settles O9: of the five kinds of edge, only the command before any reset has no next state. -/
theorem onlyCommandsBeforeResetAreRefused : Obligations.OnlyCommandsBeforeResetAreRefused := by
  intro s r
  refine ⟨fun h => ?_, ?_⟩
  · rcases edge_kinds s with hr | ⟨hr, hv⟩ | ⟨hr, hv, hs⟩ | ⟨he, i, t, hd, ht⟩ | ⟨he, e, hd⟩
    · cases (step_reset hr).symm.trans h
    · cases (step_idle hr hv).symm.trans h
    · cases (step_before_reset hr hv hs).symm.trans h
      exact ⟨rfl, hr, hv, hs⟩
    · cases (step_command he hd ht).symm.trans h
    · cases (step_illegal he hd).symm.trans h
  · rintro ⟨rfl, hr, hv, hs⟩
    exact step_before_reset hr hv hs

/-- Settles O1: one fixed state, its fields and ports evaluated. -/
theorem resetStateShowsZeroOnEveryOutput : Obligations.ResetStateShowsZeroOnEveryOutput :=
  ⟨rfl, rfl, by decide⟩

/-- Settles O2: the host's next port values touch neither R nor `out`, so both are those of `resetEdge`. -/
theorem resetEdgeTakesResetValues : Obligations.ResetEdgeTakesResetValues := fun s hr =>
  ⟨_, step_reset hr, presentNext_R (resetEdge s), presentNext_out (resetEdge s)⟩

/-- R161, R186: a command rewrites `out` wherever an error is shown, since every command clears it. -/
theorem exec_out_ne_of_err {i : Instr} {s t : State} (h : exec i s = .next t) (hs : s.out.err = true) :
    t.out ≠ s.out := by
  obtain ⟨-, -, -, -, herr, -⟩ := exec_frame h
  intro hout
  simp [hout, hs] at herr

/-- Settles O3: an idle edge only presents the next port values; NOP after an illegal command clears `out.err`. -/
theorem idleEdgeKeepsRegisterAndOutput : Obligations.IdleEdgeKeepsRegisterAndOutput := by
  refine ⟨fun s hr hv => ⟨_, step_idle hr hv, presentNext_R s, presentNext_out s⟩, ?_⟩
  have hnop : exec .nop (takeIllegalCommand State.reset) =
      .next (writeOut zero33 noRelations (takeIllegalCommand State.reset)) := rfl
  exact ⟨_, _, hnop, exec_out_ne_of_err hnop rfl⟩

/-- Settles O4: the command completes, so its next state is the one the step presents the ports of. -/
theorem stepRunsTheDecodedCommand : Obligations.StepRunsTheDecodedCommand := by
  intro s i he hd
  obtain ⟨t, ht⟩ := exec_completes i s
  rw [step_command he hd ht, ht]

end Sys2Proof.Machine
end
